-- ==== Sys2Proof/Word.lean ====
section
/-! DEFINITION. The block's one data type (spec/00_scope.md R6, R7): a byte of 8 bits, bit 7 the most significant.
No other width exists; counts are natural numbers. -/

namespace Sys2Proof

/-- A byte, the source's RawByte: "an 8-bit value" (R6, R7). -/
abbrev Byte := BitVec 8

/-- A packet, the source's DecodedPacket: "an ordered sequence of bytes" (R9, R23), first byte first. -/
abbrev Packet := List Byte

end Sys2Proof
end

