-- ==== Sys2Proof/Machine/Markers.lean ====
section
/-! DEFINITION. The four marker constants (spec/00_scope.md R5). They are fixed, not parameters. -/

namespace Sys2Proof.Marker

/-- END = 0xC0 (R5). -/
def END : Byte := 0xC0
/-- ESC = 0xDB (R5). -/
def ESC : Byte := 0xDB
/-- ESC_END = 0xDC (R5). -/
def ESC_END : Byte := 0xDC
/-- ESC_ESC = 0xDD (R5). -/
def ESC_ESC : Byte := 0xDD

end Sys2Proof.Marker
end

