-- ==== Sys2Proof/Config.lean ====
section
/-! DEFINITION. The one implementation parameter, `MAXLEN` (spec/00_scope.md R4), and the width derived from it (R6). -/

namespace Sys2Proof

/-- What is fixed when the block is built: `MAXLEN`, "a configurable positive integer" (R4).
`MAXLEN = 0` cannot be built (R4, 93_implementation_defined.md U1), so a configuration carries its positivity. -/
structure Config where
  maxLen : Nat
  maxLen_pos : 0 < maxLen := by decide
deriving DecidableEq, Repr

/-- The default configuration, `MAXLEN = 100` (R4: "source default 100"). -/
def Config.standard : Config := { maxLen := 100 }

/-- The configuration for a requested `MAXLEN`, refused (`none`) for 0 (R4, U1). -/
def Config.ofMaxLen? (n : Nat) : Option Config :=
  if h : 0 < n then some { maxLen := n, maxLen_pos := h } else none

/-- `CW = floor(log2(MAXLEN)) + 1`, the bits that hold the count `received` (R6, 92_eei_decisions.md D5). -/
def Config.countWidth (c : Config) : Nat := Nat.log2 c.maxLen + 1

end Sys2Proof
end

