-- ==== Sys2Proof/Syntax.lean ====
section
/-! DEFINITION. The six operations of spec/opcode_table.json (spec/30_encoding.md R38) and the mode each exists in. -/

namespace Sys2Proof

/-- The decode mode, "two states, `Normal` and `EscapePending`" (spec/10_state.md R11). -/
inductive Mode where
  | normal
  | escapePending
deriving DecidableEq, Repr

/-- The flag bit `esc_pending` that stores the mode: 0 for `Normal`, 1 for `EscapePending` (R11). -/
def Mode.escPending : Mode → BitVec 1
  | .normal => 0
  | .escapePending => 1

/-- One operation: the class of an accepted byte (R38), with the byte itself where its value is not fixed by the class. -/
inductive Instr where
  /-- END: packet boundary (R50). -/
  | endPkt
  /-- ESC: escape introducer (R51). -/
  | esc
  /-- DATA: plain data byte (R52). -/
  | data (b : Byte)
  /-- ESC_END: escaped END (R60). -/
  | escEnd
  /-- ESC_ESC: escaped ESC (R61). -/
  | escEsc
  /-- PASS: invalid escape pair, passed through (R62). -/
  | pass (b : Byte)
deriving DecidableEq, Repr

/-- The mode an operation exists in (R38, column "mode it exists in"). -/
def Instr.mode : Instr → Mode
  | .endPkt | .esc | .data _ => .normal
  | .escEnd | .escEsc | .pass _ => .escapePending

/-- The operation's mnemonic in spec/opcode_table.json. -/
def Instr.mnemonic : Instr → String
  | .endPkt => "END"
  | .esc => "ESC"
  | .data _ => "DATA"
  | .escEnd => "ESC_END"
  | .escEsc => "ESC_ESC"
  | .pass _ => "PASS"

end Sys2Proof
end

