-- ==== Sys2Proof/WellFormed.lean ====
section
/-! DEFINITION. Which terms of `Instr` are operations of the block: the catch-all classes exclude the byte values that
the other classes of their mode take (spec/30_encoding.md R38, R46 `excludes`). -/

namespace Sys2Proof

/-- DATA holds "every value but `0xC0`, `0xDB`" and PASS "every value but `0xDC`, `0xDD`" (R38); the other four classes
have no operand to check. -/
def Instr.wf : Instr → Bool
  | .data b => b != Marker.END && b != Marker.ESC
  | .pass b => b != Marker.ESC_END && b != Marker.ESC_ESC
  | .endPkt | .esc | .escEnd | .escEsc => true

end Sys2Proof
end

