-- ==== Sys2Proof/Decode.lean ====
section
/-! DEFINITION. The decoder `classify` (spec/30_encoding.md R39), total on every mode and byte with no "invalid" verdict
(R41); the encoder; the walk of a stream with the mode (R42); and the decoder written from the opcode table alone (R46). -/

namespace Sys2Proof

/-- `classify(mode, b)` of R39: reads the mode and the byte and nothing else. -/
def classify (m : Mode) (b : Byte) : Instr :=
  match m with
  | .normal => if b = Marker.END then .endPkt else if b = Marker.ESC then .esc else .data b
  | .escapePending =>
    if b = Marker.ESC_END then .escEnd else if b = Marker.ESC_ESC then .escEsc else .pass b

/-- The decoder over a stretch of the stream: one operation is exactly one byte (R36), so it takes the first byte and
gives back the rest. `none` only says that no byte is there; no byte is ever rejected (R41). -/
def decode (m : Mode) : List Byte → Option (Instr × List Byte)
  | [] => none
  | b :: rest => some (classify m b, rest)

/-- The one byte that is the operation in its mode (R35, R38, column "byte values"). -/
def encode : Instr → Byte
  | .endPkt => Marker.END
  | .esc => Marker.ESC
  | .data b => b
  | .escEnd => Marker.ESC_END
  | .escEsc => Marker.ESC_ESC
  | .pass b => b

/-- The mode an operation leaves (R42, R45, column "to"; the table's `next_mode`). -/
def Instr.nextMode : Instr → Mode
  | .esc => .escapePending
  | .endPkt | .data _ | .escEnd | .escEsc | .pass _ => .normal

/-- The classes of the bytes of a stretch, walked with the mode from `m` (R39, R42). -/
def classes : Mode → List Byte → List Instr
  | _, [] => []
  | m, b :: rest => classify m b :: classes (classify m b).nextMode rest

/-- The mode after the bytes of a stretch, walked from `m` (R42). -/
def modeAfter : Mode → List Byte → Mode
  | m, [] => m
  | m, b :: rest => modeAfter (classify m b).nextMode rest

/-- The operations follow one another from mode `m`: each is well-formed and exists in the mode that the one before it
left. -/
def Instr.chained : Mode → List Instr → Bool
  | _, [] => true
  | m, i :: rest => i.wf && (i.mode == m) && Instr.chained i.nextMode rest

/-- The encodings of a sequence of operations, one byte each (R36). -/
def encodeAll (is : List Instr) : List Byte := is.map encode

/-! ## The decoder written from the table (R46) -/

/-- One row of spec/opcode_table.json, with the columns R46 names. -/
structure OpcodeRow where
  mnemonic : String
  mode : Mode
  pattern : Byte
  mask : Byte
  priority : Nat
  excludes : List Byte
  nextMode : Mode
deriving DecidableEq, Repr

/-- The table's six rows, copied column by column; within a mode they stand in rising priority. -/
def opcodeTable : List OpcodeRow :=
  [ { mnemonic := "END", mode := .normal, pattern := 0xC0, mask := 0xFF, priority := 1, excludes := [],
      nextMode := .normal },
    { mnemonic := "ESC", mode := .normal, pattern := 0xDB, mask := 0xFF, priority := 2, excludes := [],
      nextMode := .escapePending },
    { mnemonic := "DATA", mode := .normal, pattern := 0x00, mask := 0x00, priority := 3, excludes := [0xC0, 0xDB],
      nextMode := .normal },
    { mnemonic := "ESC_END", mode := .escapePending, pattern := 0xDC, mask := 0xFF, priority := 1, excludes := [],
      nextMode := .normal },
    { mnemonic := "ESC_ESC", mode := .escapePending, pattern := 0xDD, mask := 0xFF, priority := 2, excludes := [],
      nextMode := .normal },
    { mnemonic := "PASS", mode := .escapePending, pattern := 0x00, mask := 0x00, priority := 3,
      excludes := [0xDC, 0xDD], nextMode := .normal } ]

/-- A row applies to byte `b` in mode `m` when the mode is the row's and `b AND mask = match` (R46). -/
def OpcodeRow.applies (r : OpcodeRow) (m : Mode) (b : Byte) : Bool :=
  r.mode == m && (b &&& r.mask) == r.pattern

/-- R46: "pick the rows of the current mode, take them in priority order, the first that matches gives the class". -/
def tableRow? (m : Mode) (b : Byte) : Option OpcodeRow :=
  opcodeTable.find? (fun r => r.applies m b)

/-- R46, for "a reader who ignores `priority`": the rows that apply to the byte and do not exclude it. -/
def tableRowsByExcludes (m : Mode) (b : Byte) : List OpcodeRow :=
  opcodeTable.filter (fun r => r.applies m b && !r.excludes.contains b)

/-! ## The host's reading of one table word -/

/-- The mode in which a bare table word is read. The decoder needs a mode (R39) and a word alone has none: a word that
is the fixed byte of a table row is read in that row's mode, every other word in the reset mode `Normal`
(DESIGN CHOICE, notes/assumptions/5.md). -/
def wordMode (b : Byte) : Mode :=
  if b = Marker.ESC_END ∨ b = Marker.ESC_ESC then .escapePending else .normal

/-- The instruction that `classify` reads from a table word of one byte (R35, R36), in the mode `wordMode` says;
no table row has another length. -/
def decodeTableWord (nbits w : Nat) : Option Instr :=
  if nbits = 8 then
    let b := BitVec.ofNat 8 w
    (decode (wordMode b) [b]).map Prod.fst
  else none

end Sys2Proof
end

