-- ==== Sys2Proof/Machine/State.lean ====
section
/-! DEFINITION. The machine's state as plain data, the events that reach it, the reasons a step can stop (none), and the
state after reset (spec/10_state.md R10 to R19, spec/50_interfaces.md R85 to R93). -/

namespace Sys2Proof.Machine

/-- The block's input ports as sampled at one clock edge (R85): `rst`, `in_valid` and `in_data`. -/
structure Edge where
  rst : Bool
  inValid : Bool
  inData : Byte
deriving DecidableEq, Repr

/-- The three kinds of event of the transaction-level model (R87): `Byte(b)`, `Reset`, and nothing. -/
inductive Event where
  | byte (b : Byte)
  | reset
  | nothing
deriving DecidableEq, Repr

/-- Why a step stops with a fault: never. "The block raises no exception, trap or fault, ever" (spec/60_exceptions.md
R100), so this closed inductive has no constructor; nobody can raise one, which is safe. -/
inductive Fault where
deriving DecidableEq, Repr

/-- Why a step is refused. R100: a step "has no fault outcome and no refusal outcome for any byte". -/
inductive Refusal where
  /-- An operation of the table that the model gives no meaning. Raised by no arm of `exec` in this model: all six
  operations have their meaning. Safe. -/
  | notModelled (mnemonic : String)
deriving DecidableEq, Repr

/-- The state. `mode`, `received` and `acc` are the whole state the spec gives the block (R10). `config` is the build-time
parameter, which no operation writes (R4, R15). `out`, `sink` and `input` are the two boundary contracts (R86, R89) as a
one-argument step function needs them (notes/assumptions/1.md to 3.md). -/
@[ext]
structure State where
  /-- `MAXLEN`, fixed for the life of the block (R4). Not a register (R15). -/
  config : Config
  /-- The escape-pending flag (R11). -/
  mode : Mode
  /-- The count of bytes accumulated, `0..MAXLEN` (R13). -/
  received : Nat
  /-- The accumulator: the bytes of the packet in progress, first appended first; the position in the list is the cell's
  index, and there are no cells at or above `received` (R12, R16). -/
  acc : List Byte
  /-- The result of the last step, `Some(p)` or `None` (R8, R39); what the ports `pkt_valid`, `pkt_len` and `pkt_data`
  show in that step (R90). -/
  out : Option Packet
  /-- The packets the packet sink has been given, in order of completion (R89, R93). -/
  sink : List Packet
  /-- The edges the outside has yet to present, next first (R21, R86). -/
  input : List Edge
deriving DecidableEq, Repr

/-- The state after reset for a block built with configuration `c`: `mode = Normal`, `received = 0`, `acc = []` (R19);
nothing emitted and nothing presented yet. -/
def State.resetOf (c : Config) : State :=
  { config := c, mode := .normal, received := 0, acc := [], out := none, sink := [], input := [] }

/-- The machine right after reset (R19), with the default `MAXLEN = 100` (R4). -/
def State.reset : State := State.resetOf Config.standard

/-- The spec's notation `(mode, received, acc)` for a state of the block (40_normal_mode.md). -/
def State.block (s : State) : Mode × Nat × List Byte := (s.mode, s.received, s.acc)

end Sys2Proof.Machine
end

