-- ==== Sys2Proof/Machine/Ops.lean ====
section
/-! DEFINITION. The named operations over the accumulator, the mode and the boundary: `Append` (spec/20_memory.md R27),
`Packet` (R29), `Clear` (R33), the reset event (spec/70_reset_and_hazards.md R120), waiting (spec/50_interfaces.md R88),
and the fetch of the next edge. There is no operation that takes an exception: "There is no trap mechanism: no handler, no
vector, no saved state, no mode change on error, no return operation" (spec/60_exceptions.md R107). -/

namespace Sys2Proof.Machine

/-! ## The accumulator -/

/-- Where a store goes: "The effective address is `received`" and a store happens only when `received < MAXLEN` (R27).
`none`: the byte is dropped. -/
def State.storeIndex (s : State) : Option Nat :=
  if s.received < s.config.maxLen then some s.received else none

/-- `Append(v)`, the only store (R27). -/
def append (v : Byte) (s : State) : State :=
  match s.storeIndex with
  | some i => { s with acc := s.acc ++ [v], received := i + 1 }
  | none => s

/-- `acc[i]`, read of accumulator cell `i` (R8): a cell exists only below `received` (R12, R26). -/
def State.readCell (s : State) (i : Nat) : Option Byte :=
  if i < s.received then s.acc[i]? else none

/-- `Packet()`, the only load: `[acc[0], ..., acc[received - 1]]` (R29). -/
def packet (s : State) : Packet := s.acc.take s.received

/-- `mode <- m` (R8). -/
def setMode (m : Mode) (s : State) : State := { s with mode := m }

/-- `Clear()`: `received <- 0; mode <- Normal`; the accumulator becomes the empty sequence (R33). -/
def clear (s : State) : State := { s with received := 0, acc := [], mode := .normal }

/-! ## The result of a step -/

/-- `out <- Some(p)` (R8): the packet is the step's result and the sink is given it, whole and once (R89, R90). -/
def emit (p : Packet) (s : State) : State := { s with out := some p, sink := s.sink ++ [p] }

/-- `out <- None` (R8). -/
def emitNothing (s : State) : State := { s with out := none }

/-- The common shape of the three resolvers (spec/41_escape_pending_mode.md R60, R61, R62): `Append(v); mode <- Normal;
out <- None`. -/
def resolve (v : Byte) (s : State) : State := emitNothing (setMode .normal (append v s))

/-! ## Events that are not a byte -/

/-- The reset event (R120): `mode <- Normal; received <- 0`, the accumulator empty, no packet emitted. Packets already
given to the sink and edges still to come are outside the block and stay. -/
def resetEvent (s : State) : State := { s with mode := .normal, received := 0, acc := [], out := none }

/-- An edge with no byte and no reset (R87, R88): "the state does not change and no packet is emitted". -/
def wait (s : State) : State := emitNothing s

/-! ## The input -/

/-- Which event an edge is (R87): reset wins over a byte presented at the same edge (R121); with neither, nothing. -/
def Edge.event (e : Edge) : Event :=
  if e.rst then .reset else if e.inValid then .byte e.inData else .nothing

/-- An edge that presents the byte `b` and requests no reset. -/
def Edge.ofByte (b : Byte) : Edge := { rst := false, inValid := true, inData := b }

/-- An edge at which nothing is presented (R88). -/
def Edge.quiet : Edge := { rst := false, inValid := false, inData := 0 }

/-- The edge the next step sees and the state with it taken from the input: a byte once delivered is gone (R21). When
the outside presents nothing more, the edge is a quiet one (R88, R79). -/
def State.nextEdge (s : State) : Edge × State :=
  match s.input with
  | [] => (Edge.quiet, s)
  | e :: rest => (e, { s with input := rest })

/-- The state with the byte `b` presented at the next edge, before whatever the outside presents later, and the mode in
which `b` is to be read. -/
def State.present (m : Mode) (b : Byte) (s : State) : State :=
  { s with mode := m, input := Edge.ofByte b :: s.input }

end Sys2Proof.Machine
end

