-- ==== Sys2Proof/Machine/Operands.lean ====
section
/-! DEFINITION. The operand forms: there is one, the payload of the four appending classes (spec/30_encoding.md R37). "No
operation has an operand field." -/

namespace Sys2Proof.Machine

/-- The byte an operation appends (R37): the input byte itself for DATA and PASS, the constants `0xC0` and `0xDB` for
ESC_END and ESC_ESC, none for END and ESC. -/
def payload : Instr → Option Byte
  | .data b => some b
  | .pass b => some b
  | .escEnd => some Marker.END
  | .escEsc => some Marker.ESC
  | .endPkt | .esc => none

end Sys2Proof.Machine
end

