-- ==== Sys2Proof/Machine/EscapePending.lean ====
section
/-! DEFINITION. The three operations of `EscapePending` mode (spec/41_escape_pending_mode.md): ESC_END, ESC_ESC, PASS. -/

namespace Sys2Proof.Machine

/-- ESC_END (R60): `Append(0xC0); mode <- Normal; out <- None`. -/
def execEscEnd (s : State) : Host.Outcome State Fault Refusal :=
  .next (resolve Marker.END s)

/-- ESC_ESC (R61): `Append(0xDB); mode <- Normal; out <- None`. -/
def execEscEsc (s : State) : Host.Outcome State Fault Refusal :=
  .next (resolve Marker.ESC s)

/-- PASS (R62): `Append(b); mode <- Normal; out <- None`; the introducer is lost, and truncation applies
(90_conflicts.md C1). -/
def execPass (b : Byte) (s : State) : Host.Outcome State Fault Refusal :=
  .next (resolve b s)

end Sys2Proof.Machine
end

