-- ==== Sys2Proof/Machine/Normal.lean ====
section
/-! DEFINITION. The three operations of `Normal` mode (spec/40_normal_mode.md): END, ESC, DATA. -/

namespace Sys2Proof.Machine

/-- END (R50): the accumulator as it stands before the clear is emitted if it is not empty, nothing is emitted if it is;
then `Clear()`. -/
def execEnd (s : State) : Host.Outcome State Fault Refusal :=
  .next (clear (if 0 < s.received then emit (packet s) s else emitNothing s))

/-- ESC (R51): `mode <- EscapePending; out <- None`. -/
def execEsc (s : State) : Host.Outcome State Fault Refusal :=
  .next (emitNothing (setMode .escapePending s))

/-- DATA (R52): `Append(b); out <- None`; the mode is not written. -/
def execData (b : Byte) (s : State) : Host.Outcome State Fault Refusal :=
  .next (emitNothing (append b s))

end Sys2Proof.Machine
end

