-- ==== Sys2Proof/Machine/Dispatch.lean ====
section
/-! DEFINITION. One arm per operation, each a direct call of its meaning (spec/30_encoding.md R39). -/

namespace Sys2Proof.Machine

/-- The operation `i` performed in state `s`: the case distinction of `feed` (R39). -/
def exec (i : Instr) (s : State) : Host.Outcome State Fault Refusal :=
  match i with
  | .endPkt => Sys2Proof.Machine.execEnd s
  | .esc => Sys2Proof.Machine.execEsc s
  | .data b => Sys2Proof.Machine.execData b s
  | .escEnd => Sys2Proof.Machine.execEscEnd s
  | .escEsc => Sys2Proof.Machine.execEscEsc s
  | .pass b => Sys2Proof.Machine.execPass b s

end Sys2Proof.Machine
end

