-- ==== Sys2Proof/Machine/Runner.lean ====
section
/-! DEFINITION. One event (spec/50_interfaces.md R87) and a run of them (spec/42_stream_laws.md R70, R93). -/

namespace Sys2Proof.Machine

/-- `feed(b)` (spec/30_encoding.md R39): classify the byte under the current mode and perform the class's operation. The
returned `out` is the field `out` of the next state. -/
def feed (b : Byte) (s : State) : Host.Outcome State Fault Refusal := exec (classify s.mode b) s

/-- What an event does (R87): a byte is one `feed`, a reset is the reset event, nothing is waiting. -/
def onEvent (e : Event) (s : State) : Host.Outcome State Fault Refusal :=
  match e with
  | .byte b => feed b s
  | .reset => .next (resetEvent s)
  | .nothing => .next (wait s)

/-- A run over a finite sequence of events (R93): the final state and the packets emitted, in order. -/
def runEvents : State → List Event → Host.Outcome (State × List Packet) Fault Refusal
  | s, [] => .next (s, [])
  | s, e :: rest =>
    match onEvent e s with
    | .next s1 =>
      match runEvents s1 rest with
      | .next (s2, ps) => .next (s2, s1.out.toList ++ ps)
      | .fault r => .fault r
      | .refused r => .refused r
    | .fault r => .fault r
    | .refused r => .refused r

/-- `run(s, bs)` (R70): the bytes fed one after another. -/
def run (s : State) (bs : List Byte) : Host.Outcome (State × List Packet) Fault Refusal :=
  runEvents s (bs.map Event.byte)

end Sys2Proof.Machine
end

