-- ==== Sys2Proof/Machine/Step.lean ====
section
/-! DEFINITION. One step: the next edge the outside presents, and the event it is (spec/50_interfaces.md R87). -/

namespace Sys2Proof.Machine

/-- One clock edge (R87): "One edge, at most one step." -/
def step (s : State) : Host.Outcome State Fault Refusal := onEvent s.nextEdge.1.event s.nextEdge.2

/-- `s` with the table word's one byte presented at the next edge, and the mode in which `decodeTableWord` reads that word
(notes/assumptions/5.md, 6.md). -/
def State.withFetchWord (s : State) (nbits w : Nat) : State :=
  let b := BitVec.ofNat 8 (w % 2 ^ nbits)
  s.present (wordMode b) b

end Sys2Proof.Machine
end

