-- ==== Sys2Proof/Machine/Flags.lean ====
section
/-! DEFINITION. The conditions the block computes and the anomalies an outside layer may count. The mode is the only flag
(spec/10_state.md R11: no condition codes, no "buffer full" flag); the anomalies are a ghost output on which no state
depends (spec/60_exceptions.md R101, R102). -/

namespace Sys2Proof.Machine

/-- "full": the comparison `received = MAXLEN`, computed when needed (R11). -/
def State.full (s : State) : Bool := s.received == s.config.maxLen

/-- The three conditions of R101, under the spec's names. -/
inductive Anomaly where
  /-- DUP_END: "duplicate END with empty packet (absorbed)". -/
  | dupEnd
  /-- BAD_ESC: "invalid escape pair (pass-through)". -/
  | badEsc
  /-- OVERSIZE: "oversized packet (truncated by dropping excess bytes)". -/
  | oversize
deriving DecidableEq, Repr

/-- Whether the anomaly occurs when the operation is performed in the state (R101, column "occurs in a step exactly
when"). -/
def Anomaly.occurs (s : State) (i : Instr) : Anomaly → Bool
  | .dupEnd => match i with
    | .endPkt => s.received == 0
    | .esc | .data _ | .escEnd | .escEsc | .pass _ => false
  | .badEsc => match i with
    | .pass _ => true
    | .endPkt | .esc | .data _ | .escEnd | .escEsc => false
  | .oversize => (payload i).isSome && s.full

/-- `anomalies(state, b)` (R101): the names whose condition holds, in the order of R101's table, none twice. -/
def anomalies (s : State) (b : Byte) : List Anomaly :=
  [Anomaly.dupEnd, .badEsc, .oversize].filter (fun a => a.occurs s (classify s.mode b))

end Sys2Proof.Machine
end

