-- ==== Sys2Proof/Machine/Ports.lean ====
section
/-! DEFINITION. The ports of the hardware block (spec/50_interfaces.md R85, R90, R91) and the byte source's contract as
edges (R86, spec/60_exceptions.md R104). The input ports are `Edge`; `clk` is the sequence of edges itself. -/

namespace Sys2Proof.Machine

/-- The output ports, with R85's widths. -/
structure OutPorts (c : Config) where
  inReady : Bool
  pktValid : Bool
  pktLen : BitVec c.countWidth
  pktData : BitVec (8 * c.maxLen)
deriving DecidableEq, Repr

/-- "byte `i` of the packet on bits `8*i+7 : 8*i`" (R85). -/
def OutPorts.byte {c : Config} (o : OutPorts c) (i : Nat) : Byte := o.pktData.extractLsb' (8 * i) 8

/-- The port values the spec allows in the step that led to `s` (R90, R91). What the spec leaves unspecified
(`pkt_len` and `pkt_data` when `pkt_valid = 0`, the bytes of `pkt_data` at and above `pkt_len`) is not constrained. -/
def State.Drives (s : State) (o : OutPorts s.config) : Prop :=
  o.inReady = true ∧ o.pktValid = s.out.isSome ∧
  ∀ p, s.out = some p → o.pktLen.toNat = p.length ∧ ∀ i, (h : i < p.length) → o.byte i = p[i]

/-- What `read_byte()` of the byte source answers, `Result<u8, TransportError>` (R86); a read timeout is the source's
"transient error reported to the caller" (R104). -/
inductive ReadResult where
  | byte (b : Byte)
  | transportError
  | timeout
deriving DecidableEq, Repr

/-- What a read is to the block (R104): a byte is presented; "a transport failure is simply that no further byte is
presented", and a timeout is only a longer gap. -/
def ReadResult.edge : ReadResult → Edge
  | .byte b => Edge.ofByte b
  | .transportError | .timeout => Edge.quiet

/-- The driver's "restart the decoder against a fresh byte source": the edge that requests the reset event (R104, R120),
whatever is on the byte input. -/
def Edge.restart (inValid : Bool) (inData : Byte) : Edge := { rst := true, inValid := inValid, inData := inData }

end Sys2Proof.Machine
end

