-- ==== Sys2Proof/Machine/Streams.lean ====
section
/-! DEFINITION. Streams written down (spec/30_encoding.md R44) and what a stretch of a stream decodes to
(spec/42_stream_laws.md R72, R77), read off the bytes alone, without the machine. -/

namespace Sys2Proof.Machine

/-! ## Pseudo-operations (R44): a notation of the spec, not a SLIP sender -/

/-- `LIT v`. -/
def lit (v : Byte) : List Byte :=
  if v = Marker.END then [Marker.ESC, Marker.ESC_END]
  else if v = Marker.ESC then [Marker.ESC, Marker.ESC_ESC]
  else [v]

/-- `PKT [v1, ..., vn]`: the literals, then END. -/
def pkt (vs : Packet) : List Byte := vs.flatMap lit ++ [Marker.END]

/-- `FLUSH`: one END. -/
def flush : List Byte := [Marker.END]

/-! ## What a stretch decodes to -/

/-- The decoded sequence `d` of R77, walked from mode `m`: the payloads of the stretch's operations, in order. -/
def decodedSequence (m : Mode) (bs : List Byte) : List Byte := (classes m bs).filterMap payload

/-- The number `k` of introducers in the stretch: bytes `0xDB` accepted in `Normal` mode (R72). -/
def introducers (m : Mode) (bs : List Byte) : Nat := (classes m bs).count .esc

/-- No byte of the stretch is classified END (R77). -/
def endFree (m : Mode) (bs : List Byte) : Bool := !(classes m bs).contains .endPkt

end Sys2Proof.Machine
end

