-- ==== Sys2Proof/Safety.lean ====
section
/-! DEFINITION. What counts as a good state and a safe run, in the terms the statements use (spec/10_state.md R17,
spec/50_interfaces.md R89). -/

namespace Sys2Proof.Machine

/-- R17: `0 <= received <= MAXLEN`, and `acc` has exactly `received` bytes; `mode` is one of its two values by its
type. -/
abbrev State.BlockOk (s : State) : Prop := s.received ≤ s.config.maxLen ∧ s.acc.length = s.received

/-- A packet the block may emit: "a sequence of `1..MAXLEN` bytes" (R50, R89). -/
abbrev State.PacketOk (s : State) (p : Packet) : Prop := 1 ≤ p.length ∧ p.length ≤ s.config.maxLen

/-- The invariant of every reachable state: R17, and every packet on the ports or with the sink has `1..MAXLEN` bytes. -/
abbrev State.Inv (s : State) : Prop :=
  s.BlockOk ∧ (∀ p ∈ s.out.toList, s.PacketOk p) ∧ ∀ p ∈ s.sink, s.PacketOk p

/-- The block is in the reset state `(Normal, 0, [])` (R19). -/
abbrev State.AtReset (s : State) : Prop := s.block = (.normal, 0, [])

/-- A run that never stopped: a safe run. R100 makes every run one. -/
abbrev Completes (r : Host.Outcome (State × List Packet) Fault Refusal) : Prop := ∃ t ps, r = .next (t, ps)

/-- `acc` read as the memory of the guide's canonical form: a list of (address, byte) pairs, cell `i` at address `i`. -/
def State.cells (s : State) : List Host.Cell := s.acc.zipIdx.map (fun p => (p.2, p.1))

/-- The canonical form of such a list: addresses strictly rising. -/
abbrev Memory.wf (m : List Host.Cell) : Prop := (m.map Prod.fst).Pairwise (· < ·)

end Sys2Proof.Machine
end

