-- ==== Sys2Proof/Certificates/Slice0/Obligations.lean ====
section
/-! DEFINITION. The statements for the provers, from the numbered rules of the spec. -/

open Sys2Proof Sys2Proof.Machine

/-- `Append(v)` as R27 words it, between the states before and after: below `MAXLEN` the byte is stored at the end and
counted, at `MAXLEN` nothing changes. -/
def AppendedBetween (v : Byte) (s t : State) : Prop :=
  (s.received < s.config.maxLen → t.acc = s.acc ++ [v] ∧ t.received = s.received + 1) ∧
  (s.received = s.config.maxLen → t.acc = s.acc ∧ t.received = s.received)

/-! ## Parameters and constants -/

/-- R5: the four marker constants, each in hexadecimal and octal as the source gives it, and in decimal and binary,
the columns the spec derives. -/
def Obligations.MarkerConstantsAgreeInEverySpelling : Prop :=
  (Marker.END.toNat = 0xC0 ∧ Marker.END.toNat = 0o300 ∧ Marker.END.toNat = 192 ∧ Marker.END.toNat = 0b11000000) ∧
  (Marker.ESC.toNat = 0xDB ∧ Marker.ESC.toNat = 0o333 ∧ Marker.ESC.toNat = 219 ∧ Marker.ESC.toNat = 0b11011011) ∧
  (Marker.ESC_END.toNat = 0xDC ∧ Marker.ESC_END.toNat = 0o334 ∧ Marker.ESC_END.toNat = 220 ∧
    Marker.ESC_END.toNat = 0b11011100) ∧
  (Marker.ESC_ESC.toNat = 0xDD ∧ Marker.ESC_ESC.toNat = 0o335 ∧ Marker.ESC_ESC.toNat = 221 ∧
    Marker.ESC_ESC.toNat = 0b11011101)

/-- R4 (that it is fixed and that 0 is refused is the spec's decision D4; a state that carries it is
notes/assumptions/3.md): `MAXLEN` is positive, 0 is refused and every positive value can be had, the default is 100,
no step changes it, and it bounds the accumulator and every packet. -/
def Obligations.MaxLenIsPositiveFixedAndBoundsPackets : Prop :=
  (∀ c : Config, 1 ≤ c.maxLen) ∧ Config.ofMaxLen? 0 = none ∧
  (∀ n, 1 ≤ n → ∃ c, Config.ofMaxLen? n = some c ∧ c.maxLen = n) ∧ State.reset.config.maxLen = 100 ∧
  ∀ s t : State, step s = .next t → t.config = s.config ∧
    (s.Inv → t.acc.length ≤ t.config.maxLen ∧ ∀ p, t.out = some p → p.length ≤ t.config.maxLen)

/-- R6 (the width is the spec's decision D5): `CW` bits hold every value of the count, also the one `Append` writes,
and no fewer would hold `MAXLEN`; 7 bits for the default. -/
def Obligations.CountFitsItsWidth : Prop :=
  Config.standard.countWidth = 7 ∧
  (∀ c : Config, 2 ^ (c.countWidth - 1) ≤ c.maxLen ∧ c.maxLen < 2 ^ c.countWidth) ∧
  ∀ (v : Byte) (s : State), s.BlockOk → s.received < 2 ^ s.config.countWidth ∧
    (append v s).received < 2 ^ s.config.countWidth

/-! ## Encoding -/

/-- Words written out bit by bit from the table's `encoding` column decode to their operations. That a bare word is
read in its row's mode is the model's choice (notes/assumptions/5.md). -/
def Obligations.WrittenOutWordsDecode : Prop :=
  decodeTableWord 8 0b11000000 = some .endPkt ∧ decodeTableWord 8 0b11011011 = some .esc ∧
  decodeTableWord 8 0b01000001 = some (.data 0x41) ∧ decodeTableWord 8 0b11011100 = some .escEnd ∧
  decodeTableWord 8 0b11011101 = some .escEsc ∧ classify .escapePending 0b10011001 = .pass 0x99 ∧
  classify .escapePending 0b11000000 = .pass 0xC0 ∧ classify .normal 0b11011100 = .data 0xDC

/-- R40: the opcode map, range by range in both modes, and its three consequences, which the spec marks as derived. -/
def Obligations.OpcodeMapOfBothModes : Prop :=
  (∀ b : Byte,
    (b.toNat ≤ 0xBF → classify .normal b = .data b ∧ classify .escapePending b = .pass b) ∧
    (b = 0xC0 → classify .normal b = .endPkt ∧ classify .escapePending b = .pass b) ∧
    (0xC1 ≤ b.toNat ∧ b.toNat ≤ 0xDA → classify .normal b = .data b ∧ classify .escapePending b = .pass b) ∧
    (b = 0xDB → classify .normal b = .esc ∧ classify .escapePending b = .pass b) ∧
    (b = 0xDC → classify .normal b = .data b ∧ classify .escapePending b = .escEnd) ∧
    (b = 0xDD → classify .normal b = .data b ∧ classify .escapePending b = .escEsc) ∧
    (0xDE ≤ b.toNat → classify .normal b = .data b ∧ classify .escapePending b = .pass b)) ∧
  (∀ s : State, ∀ b : Byte, s.mode = .normal → b = 0xDC ∨ b = 0xDD →
    ∃ t, feed b s = .next t ∧ AppendedBetween b s t ∧ t.mode = .normal) ∧
  (∀ s : State, ∀ b : Byte, s.mode = .escapePending → b = 0xC0 ∨ b = 0xDB →
    ∃ t, feed b s = .next t ∧ AppendedBetween b s t ∧ t.out = none ∧ t.mode = .normal)

/-- R38, R36, R41: in each mode every byte is exactly one operation of that mode, one byte long, and it is performed in
every state; of the 256 values, END, ESC, ESC_END and ESC_ESC take one each and DATA and PASS 254. -/
def Obligations.EveryByteIsOneOperationOfItsMode : Prop :=
  (∀ (m : Mode) (b : Byte) (rest : List Byte),
    decode m (b :: rest) = some (classify m b, rest) ∧ (classify m b).mode = m ∧ (classify m b).wf = true ∧
    encode (classify m b) = b ∧ ∀ i : Instr, i.wf = true → i.mode = m → encode i = b → i = classify m b) ∧
  (∀ (b : Byte) (s : State), ∃ t, feed b s = .next t) ∧
  (let values := (List.range 256).map (BitVec.ofNat 8)
   let count := fun (m : Mode) (n : String) => values.countP (fun b => (classify m b).mnemonic == n)
   count .normal "END" = 1 ∧ count .normal "ESC" = 1 ∧ count .normal "DATA" = 254 ∧
   count .escapePending "ESC_END" = 1 ∧ count .escapePending "ESC_ESC" = 1 ∧ count .escapePending "PASS" = 254)

/-- R46 (the table's layout is the spec's decision D15): "A decoder written from the table alone": by priority or by
`excludes`, it finds the class `classify` gives, and the row's `next_mode` is the mode the operation leaves. -/
def Obligations.TableDecoderFindsTheClass : Prop :=
  ∀ (m : Mode) (b : Byte), ∃ r, tableRow? m b = some r ∧ r.mnemonic = (classify m b).mnemonic ∧
    tableRowsByExcludes m b = [r] ∧ r.mode = m ∧ r.nextMode = (classify m b).nextMode

/-- Decode and encode agree over whole streams: a sequence of well-formed operations, each in the mode the one before it
left, is read back from its bytes, and every byte stream is the encoding of the sequence it is read as. -/
def Obligations.OperationStreamsRoundTrip : Prop :=
  (∀ (m : Mode) (ops : List Instr), Instr.chained m ops = true → classes m (encodeAll ops) = ops) ∧
  (∀ (m : Mode) (bs : List Byte), Instr.chained m (classes m bs) = true ∧ encodeAll (classes m bs) = bs)

/-- R37: the payload of each class, and that the operation appends exactly it. -/
def Obligations.PayloadIsWhatIsAppended : Prop :=
  (∀ b : Byte, payload (.data b) = some b ∧ payload (.pass b) = some b) ∧
  payload .escEnd = some 0xC0 ∧ payload .escEsc = some 0xDB ∧ payload .endPkt = none ∧ payload .esc = none ∧
  (∀ (i : Instr) (v : Byte) (s : State), payload i = some v → ∃ t, exec i s = .next t ∧ AppendedBetween v s t) ∧
  (∀ s : State, ∃ t, exec .esc s = .next t ∧ t.acc = s.acc ∧ t.received = s.received) ∧
  (∀ s : State, ∃ t, exec .endPkt s = .next t ∧ t.acc = [] ∧ t.received = 0)

/-! ## The six operations -/

/-- R50, END: the next state whole, the packet, its length, the anomaly, and the corner cases. -/
def Obligations.EndEmitsTheAccumulatorAndClears : Prop :=
  ∀ s : State,
    exec .endPkt s = .next { s with
      received := 0, acc := [], mode := .normal
      out := if 0 < s.received then some (s.acc.take s.received) else none
      sink := if 0 < s.received then s.sink ++ [s.acc.take s.received] else s.sink } ∧
    (s.BlockOk → s.acc.take s.received = s.acc) ∧
    (s.BlockOk → 0 < s.received → (s.acc.take s.received).length = s.received ∧ s.received ≤ s.config.maxLen) ∧
    (s.mode = .normal → classify s.mode 0xC0 = .endPkt ∧
      anomalies s 0xC0 = if s.received = 0 then [.dupEnd] else []) ∧
    (s.BlockOk → s.mode = .normal → s.received = 0 → s.AtReset) ∧
    (s.mode = .escapePending → classify s.mode 0xC0 = .pass 0xC0)

/-- R51, ESC: the next state whole, whatever the count; the byte, and that in `EscapePending` mode it is PASS. -/
def Obligations.EscEntersEscapePendingOnly : Prop :=
  ∀ s : State,
    exec .esc s = .next { s with mode := .escapePending, out := none } ∧
    (s.mode = .normal → classify s.mode 0xDB = .esc ∧ anomalies s 0xDB = []) ∧
    (s.mode = .escapePending → classify s.mode 0xDB = .pass 0xDB)

/-- R52, DATA: the next state whole, for every byte value; the encoding and the anomaly. -/
def Obligations.DataAppendsItsByteOrDropsIt : Prop :=
  ∀ (b : Byte) (s : State),
    exec (.data b) s = .next (if s.received < s.config.maxLen
      then { s with acc := s.acc ++ [b], received := s.received + 1, out := none }
      else { s with out := none }) ∧
    (s.mode = .normal → b ≠ 0xC0 → b ≠ 0xDB → classify s.mode b = .data b ∧
      anomalies s b = if s.received = s.config.maxLen then [.oversize] else [])

/-- R60, ESC_END: the next state whole; the byte appended is `0xC0`; the mode returns to `Normal` also when the byte is
dropped. -/
def Obligations.EscEndAppendsEndLiteral : Prop :=
  ∀ s : State,
    exec .escEnd s = .next (if s.received < s.config.maxLen
      then { s with acc := s.acc ++ [0xC0], received := s.received + 1, mode := .normal, out := none }
      else { s with mode := .normal, out := none }) ∧
    (s.mode = .escapePending → classify s.mode 0xDC = .escEnd ∧
      anomalies s 0xDC = if s.received = s.config.maxLen then [.oversize] else [])

/-- R61, ESC_ESC: the next state whole; the byte appended is `0xDB` and does not start a new escape. -/
def Obligations.EscEscAppendsEscLiteral : Prop :=
  ∀ s : State,
    exec .escEsc s = .next (if s.received < s.config.maxLen
      then { s with acc := s.acc ++ [0xDB], received := s.received + 1, mode := .normal, out := none }
      else { s with mode := .normal, out := none }) ∧
    (s.mode = .escapePending → classify s.mode 0xDD = .escEsc ∧
      anomalies s 0xDD = if s.received = s.config.maxLen then [.oversize] else [])

/-- R62, PASS: the next state whole, for every byte value, truncation included; the encoding and the anomalies; `DB C0`
behaves exactly like `DB DC` and `DB DB` exactly like `DB DD`. -/
def Obligations.PassAppendsTheByteUnescaped : Prop :=
  ∀ (b : Byte) (s : State),
    exec (.pass b) s = .next (if s.received < s.config.maxLen
      then { s with acc := s.acc ++ [b], received := s.received + 1, mode := .normal, out := none }
      else { s with mode := .normal, out := none }) ∧
    (s.mode = .escapePending → b ≠ 0xDC → b ≠ 0xDD → classify s.mode b = .pass b ∧
      anomalies s b = if s.received = s.config.maxLen then [.badEsc, .oversize] else [.badEsc]) ∧
    (s.mode = .escapePending → feed 0xC0 s = feed 0xDC s ∧ feed 0xDB s = feed 0xDD s)

/-! ## The accumulator and the frame -/

/-- R27: `Append` below and at the limit; it never changes the mode; every append of the block is this one; what was
appended first stays first. -/
def Obligations.AppendStoresAtReceivedOrDrops : Prop :=
  ∀ (v : Byte) (s : State),
    (s.received < s.config.maxLen → s.storeIndex = some s.received ∧
      append v s = { s with acc := s.acc ++ [v], received := s.received + 1 }) ∧
    (¬ s.received < s.config.maxLen → s.storeIndex = none ∧ append v s = s) ∧
    (append v s).mode = s.mode ∧ s.acc <+: (append v s).acc ∧
    ∀ i : Instr, payload i = some v → ∃ t, exec i s = .next t ∧
      t.acc = (append v s).acc ∧ t.received = (append v s).received

/-- R29: `Packet()` is the cells `0` to `received - 1` in order; it is read by END only, and only when
`received > 0`, so that it has `1..MAXLEN` bytes. -/
def Obligations.PacketReadsTheReceivedCells : Prop :=
  ∀ s : State, s.BlockOk →
    (packet s).length = s.received ∧ (∀ a, (packet s)[a]? = s.readCell a) ∧
    (0 < s.received → 1 ≤ (packet s).length ∧ (packet s).length ≤ s.config.maxLen) ∧
    ∀ i : Instr, ∃ t, exec i s = .next t ∧
      ((i = .endPkt ∧ 0 < s.received → t.out = some (packet s)) ∧ (¬ (i = .endPkt ∧ 0 < s.received) → t.out = none))

/-- The frame of the four appending operations: the cell `storeIndex` names reads as the payload, every other cell
reads as before; `MAXLEN`, the sink and the edges to come are unchanged; DATA keeps the mode and the resolvers return
to `Normal`. -/
def Obligations.AppendingOperationsFrame : Prop :=
  ∀ (i : Instr) (v : Byte) (s : State), payload i = some v → s.BlockOk →
    ∃ t, exec i s = .next t ∧
      (∀ a, s.storeIndex = some a → t.readCell a = some v) ∧
      (∀ a, s.storeIndex ≠ some a → t.readCell a = s.readCell a) ∧
      t.received = s.received + (if s.storeIndex = none then 0 else 1) ∧
      t.mode = (if i = .data v then s.mode else .normal) ∧
      t.out = none ∧ t.config = s.config ∧ t.sink = s.sink ∧ t.input = s.input

/-- The frame of the two operations that append nothing. ESC: every cell reads as before and only the mode and the result
change. END: every cell is forgotten, the sink gains the result and nothing else, `MAXLEN` and the edges to come stay. -/
def Obligations.EscAndEndFrame : Prop :=
  ∀ s : State,
    (∃ t, exec .esc s = .next t ∧ (∀ a, t.readCell a = s.readCell a) ∧ t.received = s.received ∧ t.acc = s.acc ∧
      t.mode = .escapePending ∧ t.out = none ∧ t.config = s.config ∧ t.sink = s.sink ∧ t.input = s.input) ∧
    (∃ t, exec .endPkt s = .next t ∧ (∀ a, t.readCell a = none) ∧ t.mode = .normal ∧
      t.sink = s.sink ++ t.out.toList ∧ t.config = s.config ∧ t.input = s.input)

/-- R33: `Clear()`; END does it whether or not it emits, it is idempotent, and it leaves what the reset event leaves. -/
def Obligations.ClearLeavesTheResetState : Prop :=
  ∀ s : State,
    clear s = { s with received := 0, acc := [], mode := .normal } ∧ (clear s).AtReset ∧ clear (clear s) = clear s ∧
    (∃ t, exec .endPkt s = .next t ∧ t.block = (clear s).block ∧
      ∃ u, onEvent .reset s = .next u ∧ u.block = (clear s).block) ∧
    (State.resetOf s.config).block = (clear s).block

/-- No operation's behaviour depends on the value of a cell (R12, R32, which the spec marks as derived): two runs of
the same bytes that start with the same mode, count and `MAXLEN` stay so, and emit packets of the same lengths,
whatever bytes the accumulators hold. -/
def Obligations.CellValuesNeverSteerTheBlock : Prop :=
  ∀ (s s' : State) (bs : List Byte), s.BlockOk → s'.BlockOk → s.config = s'.config → s.mode = s'.mode →
    s.received = s'.received →
    ∃ t ps t' ps', run s bs = .next (t, ps) ∧ run s' bs = .next (t', ps') ∧
      t.mode = t'.mode ∧ t.received = t'.received ∧ ps.map List.length = ps'.map List.length

/-! ## The mode -/

/-- R11 (the bit is the spec's decision D6): after a byte the mode is `EscapePending` exactly when that byte was
`0xDB` accepted in `Normal` mode; the bit. -/
def Obligations.EscapePendingMeansLastByteWasIntroducer : Prop :=
  (Mode.normal.escPending = 0 ∧ Mode.escapePending.escPending = 1) ∧ State.reset.mode = .normal ∧
  ∀ (b : Byte) (s : State), ∃ t, feed b s = .next t ∧ (t.mode = .escapePending ↔ s.mode = .normal ∧ b = 0xDB)

/-- R45: the complete transition table, row by row, with the effect on the accumulator and the emission, the reset
row, and that `0xDB` in `Normal` is the only way into `EscapePending`. -/
def Obligations.TransitionTable : Prop :=
  ∀ s : State, s.BlockOk →
    (s.mode = .normal →
      (∃ t, feed 0xC0 s = .next t ∧ t.block = (.normal, 0, []) ∧
        t.out = if 0 < s.received then some s.acc else none) ∧
      (∃ t, feed 0xDB s = .next t ∧ t.block = (.escapePending, s.received, s.acc) ∧ t.out = none) ∧
      (∀ b, b ≠ 0xC0 → b ≠ 0xDB → ∃ t, feed b s = .next t ∧ t.mode = .normal ∧ AppendedBetween b s t ∧ t.out = none)) ∧
    (s.mode = .escapePending →
      (∃ t, feed 0xDC s = .next t ∧ t.mode = .normal ∧ AppendedBetween 0xC0 s t ∧ t.out = none) ∧
      (∃ t, feed 0xDD s = .next t ∧ t.mode = .normal ∧ AppendedBetween 0xDB s t ∧ t.out = none) ∧
      (∀ b, b ≠ 0xDC → b ≠ 0xDD → ∃ t, feed b s = .next t ∧ t.mode = .normal ∧ AppendedBetween b s t ∧ t.out = none)) ∧
    (∃ t, onEvent .reset s = .next t ∧ t.block = (.normal, 0, []) ∧ t.out = none) ∧
    (∀ (e : Event) (t : State), onEvent e s = .next t → s.mode = .normal → t.mode = .escapePending → e = .byte 0xDB)

/-- R73, which the spec marks as derived: an escape lasts one byte; `EscapePending` is never the mode after two
consecutive bytes; in a run of `0xDB` bytes the odd ones introduce and the even ones pass through, appending `floor(m
/ 2)` bytes, truncated like every append. -/
def Obligations.EscapeLastsExactlyOneByte : Prop :=
  (∀ (b : Byte) (s : State), s.mode = .escapePending → ∃ t, feed b s = .next t ∧ t.mode = .normal) ∧
  (∀ (b c : Byte) (s : State), ∃ t u, feed b s = .next t ∧ feed c t = .next u ∧
    ¬ (t.mode = .escapePending ∧ u.mode = .escapePending)) ∧
  (∀ (m i : Nat), i < m → (classes .normal (List.replicate m 0xDB))[i]? =
    some (if i % 2 = 0 then .esc else .pass 0xDB)) ∧
  (∀ (m : Nat) (s : State), s.BlockOk → s.mode = .normal →
    ∃ t, run s (List.replicate m 0xDB) = .next (t, []) ∧
      t.acc = (s.acc ++ List.replicate (m / 2) 0xDB).take s.config.maxLen ∧
      (t.mode = .escapePending ↔ m % 2 = 1))

/-! ## Steps, waiting, reset -/

/-- R87 (the spec's decisions D1 and D9; the edges held in the state are notes/assumptions/1.md): when the next edge
presents a byte and no reset, and the decoder reads the operation `i` from it, the step is `exec i` in the state with
that edge taken from the input. -/
def Obligations.StepRunsTheDecodedOperation : Prop :=
  ∀ (s : State) (e : Edge) (edges : List Edge) (i : Instr) (rest later : List Byte),
    s.input = e :: edges → e.rst = false → e.inValid = true → decode s.mode (e.inData :: later) = some (i, rest) →
    i.wf = true ∧ rest = later ∧ step s = exec i { s with input := edges }

/-- R100: no byte, no sequence of bytes and no state makes a step fail, halt or be refused; there is no fault to raise. -/
def Obligations.NothingEverStopsTheBlock : Prop :=
  (Fault → False) ∧ (∀ (i : Instr) (s : State), ∃ t, exec i s = .next t) ∧ (∀ s : State, ∃ t, step s = .next t) ∧
  (∀ (s : State) (bs : List Byte), Completes (run s bs)) ∧
  (∀ (n : Nat) (s : State), ∃ t, Host.Core.run Sys2Proof.core n s = .next t)

/-- R88 (the spec's decision D13): while no byte and no reset is presented, for any number of edges, the state of the
block does not change and nothing is emitted; and "the length of a gap between bytes has no effect on what is
decoded": taking the idle events out of a run changes neither the packets nor the block's final state. That a step
finds a quiet edge once the list `input` is used up is the model's choice (notes/assumptions/7.md). -/
def Obligations.WaitingChangesNothing : Prop :=
  (∀ (n : Nat) (s : State), (∀ e ∈ s.input.take n, e.rst = false ∧ e.inValid = false) →
    ∃ t, Host.Core.run Sys2Proof.core n s = .next t ∧ t.block = s.block ∧ t.sink = s.sink ∧ t.config = s.config ∧
      (0 < n → t.out = none)) ∧
  (∀ (s : State) (es : List Event), ∃ t u ps,
    runEvents s es = .next (t, ps) ∧ runEvents s (es.filter (fun e => e != .nothing)) = .next (u, ps) ∧
    t.block = u.block ∧ t.sink = u.sink)

/-- R120 (the spec's decision D9): the reset event from any state: the reset state and nothing emitted, a pending
escape cancelled (`DC` after it is plain data), repeating it changes nothing. The clause that the sink and the edges to
come survive the reset (the record equation) is the model's choice (notes/assumptions/8.md). -/
def Obligations.ResetEventFromAnyState : Prop :=
  ∀ s : State, ∃ t,
    onEvent .reset s = .next t ∧ t = { s with mode := .normal, received := 0, acc := [], out := none } ∧ t.AtReset ∧
    onEvent .reset t = .next t ∧ (∀ b, feed b t = exec (classify .normal b) t) ∧
    ∃ u, feed 0xDC t = .next u ∧ u.block = (.normal, 1, [0xDC])

/-- R121 (the spec's decision D9): reset wins over a byte at the same edge; the byte is discarded and `pkt_valid` is
0. Two clauses of the record equation are the model's choice: the edge is taken from the list `input`
(notes/assumptions/1.md), and the sink and the later edges survive the reset (notes/assumptions/8.md). -/
def Obligations.ResetWinsOverAByteAtTheSameEdge : Prop :=
  ∀ (s : State) (inValid : Bool) (b : Byte) (edges : List Edge),
    s.input = { rst := true, inValid := inValid, inData := b } :: edges →
    ∃ t, step s = .next t ∧ t = { s with mode := .normal, received := 0, acc := [], out := none, input := edges } ∧
      ∀ o, t.Drives o → o.pktValid = false

/-- R104 (the spec's decision D10; as edges: notes/assumptions/14.md): a transport failure or a timeout of the byte
source is an edge with no byte: the block keeps its state, emits nothing, and a pending escape stays pending; the
driver's restart is the reset event. That the edge is taken from the list `input` is the model's choice
(notes/assumptions/1.md). -/
def Obligations.TransportFailureIsNoByte : Prop :=
  (∀ (s : State) (r : ReadResult) (edges : List Edge), r = .transportError ∨ r = .timeout → s.input = r.edge :: edges →
    step s = .next { s with out := none, input := edges }) ∧
  (∀ (s : State) (inValid : Bool) (b : Byte) (edges : List Edge), s.input = Edge.restart inValid b :: edges →
    ∃ t, step s = .next t ∧ t.AtReset ∧ t.out = none)

/-! ## Anomalies -/

/-- R101 and R106 (the names and exact conditions are the spec's decision D11): when each anomaly occurs, how its step
resolves it, and that only `BAD_ESC` and `OVERSIZE` can occur together. -/
def Obligations.AnomaliesOccurExactlyAndAreResolvedInTheStep : Prop :=
  ∀ (b : Byte) (s : State),
    (.dupEnd ∈ anomalies s b ↔ classify s.mode b = .endPkt ∧ s.received = 0) ∧
    (.badEsc ∈ anomalies s b ↔ s.mode = .escapePending ∧ b ≠ 0xDC ∧ b ≠ 0xDD) ∧
    (.oversize ∈ anomalies s b ↔
      classify s.mode b ≠ .endPkt ∧ classify s.mode b ≠ .esc ∧ s.received = s.config.maxLen) ∧
    (classify s.mode b = .esc ∨ (classify s.mode b = .endPkt ∧ 0 < s.received) → anomalies s b = []) ∧
    ((anomalies s b).length ≤ 1 ∨ anomalies s b = [.badEsc, .oversize]) ∧
    ∃ t, feed b s = .next t ∧
      (.dupEnd ∈ anomalies s b → t.out = none ∧ t.AtReset) ∧
      (.badEsc ∈ anomalies s b → AppendedBetween b s t ∧ t.mode = .normal ∧ t.out = none) ∧
      (.oversize ∈ anomalies s b → t.acc = s.acc ∧ t.received = s.received ∧ t.out = none)

/-! ## The invariant and reachability -/

/-- R17 at reset, for every `MAXLEN`. The clauses on packets hold because `out` is `none` and `sink` is `[]` in the
reset state, and these two reset values are the model's choice (notes/assumptions/2.md and 8.md). -/
def Obligations.InvariantHoldsAtReset : Prop := (∀ c : Config, (State.resetOf c).Inv) ∧ State.reset.Inv

/-- R17, whose preservation the spec marks as derived: every step keeps `0 <= received <= MAXLEN` and `acc` of exactly
`received` bytes, and every packet on the ports or with the sink has `1..MAXLEN` bytes. That the result and the sink's
packets stand in the state is the model's choice (notes/assumptions/2.md). -/
def Obligations.EveryStepKeepsTheInvariant : Prop :=
  ∀ s t : State, s.Inv → step s = .next t → t.Inv

/-- R17, whose reachability count the spec marks as derived: the states reached from reset are exactly the
combinations of a mode and at most `MAXLEN` bytes, with the count the number of bytes. -/
def Obligations.ReachableStatesAreExactlyTheAllowedOnes : Prop :=
  ∀ (c : Config) (k : Mode × Nat × List Byte),
    (∃ es t ps, runEvents (State.resetOf c) es = .next (t, ps) ∧ t.block = k) ↔
    (k.2.1 ≤ c.maxLen ∧ k.2.2.length = k.2.1)

/-! ## Runs -/

/-- R70, which the spec marks as derived: the run function's two equations, that it is total, and that it splits over
concatenation. -/
def Obligations.RunIsSequentialAndSplits : Prop :=
  (∀ s : State, run s [] = .next (s, [])) ∧
  (∀ (s : State) (b : Byte) (rest : List Byte), ∃ s1 s2 ps,
    feed b s = .next s1 ∧ run s1 rest = .next (s2, ps) ∧ run s (b :: rest) = .next (s2, s1.out.toList ++ ps)) ∧
  (∀ (s : State) (xs ys : List Byte), ∃ t u ps qs,
    run s xs = .next (t, ps) ∧ run t ys = .next (u, qs) ∧ run s (xs ++ ys) = .next (u, ps ++ qs))

/-- The machine's steps are the run function (R30, R87, R93): `n` steps over `n` edges leave what the run of those
edges' events leaves, with the later edges still to come, and the sink holds what the run emitted. The fields `input`
and `sink` are the model's choice (notes/assumptions/1.md and 2.md). -/
def Obligations.StepsOfTheMachineAreTheRun : Prop :=
  ∀ (s : State) (edges later : List Edge), s.input = edges ++ later → ∃ t ps,
    runEvents s (edges.map Edge.event) = .next (t, ps) ∧
    Host.Core.run Sys2Proof.core edges.length s = .next { t with input := later } ∧ t.sink = s.sink ++ ps

/-- Each step gives the sink its one result or nothing, and no step changes or takes back a packet given before (R22,
R89). The sink list and `out` as fields are the model's own (notes/assumptions/2.md). -/
def Obligations.EachPacketReachesTheSinkOnceInOrder : Prop :=
  (∀ s : State, ∃ t, step s = .next t ∧ t.sink = s.sink ++ t.out.toList) ∧
  (∀ (n : Nat) (s : State), ∃ t, Host.Core.run Sys2Proof.core n s = .next t ∧ s.sink <+: t.sink)

/-- R71, which the spec marks as derived: a step emits exactly when the byte is `0xC0`, the mode is `Normal` and
`received > 0`; a run emits at most one packet per `0xC0` byte, each of `1..MAXLEN` bytes, and none without a `0xC0`
byte. -/
def Obligations.PacketsComeOnlyFromEndBytes : Prop :=
  (∀ (b : Byte) (s : State), ∃ t, feed b s = .next t ∧
    (t.out.isSome = true ↔ b = 0xC0 ∧ s.mode = .normal ∧ 0 < s.received)) ∧
  (∀ (s : State) (bs : List Byte), s.BlockOk → ∃ t ps, run s bs = .next (t, ps) ∧
    ps.length ≤ bs.count 0xC0 ∧ (∀ p ∈ ps, s.PacketOk p) ∧ (0xC0 ∉ bs → ps = []))

/-- R72: a stream without `0xC0`, from any good state: nothing is emitted, the count is `min(MAXLEN, r0 + n - k)` with
`k` the introducers, and the mode is `EscapePending` exactly when the last byte was an introducer. -/
def Obligations.StreamWithoutEndCountsItsBytes : Prop :=
  ∀ (s : State) (bs : List Byte), s.BlockOk → 0xC0 ∉ bs →
    ∃ t, run s bs = .next (t, []) ∧ introducers s.mode bs ≤ bs.length ∧
      t.received = min s.config.maxLen (s.received + (bs.length - introducers s.mode bs)) ∧
      (bs = [] → t.mode = s.mode) ∧
      (bs ≠ [] → (t.mode = .escapePending ↔ ∃ before, bs = before ++ [0xDB] ∧ modeAfter s.mode before = .normal))

/-- R74: any number of ENDs from the reset state is absorbed; after a packet every immediately following END is
absorbed; ENDs put before a packet or between packets change nothing that is decoded. -/
def Obligations.DuplicateEndsAreAbsorbed : Prop :=
  (∀ (s : State) (n : Nat), s.AtReset →
    ∃ t, run s (List.replicate n 0xC0) = .next (t, []) ∧ t.AtReset) ∧
  (∀ (s : State) (n : Nat), s.BlockOk → s.mode = .normal → 0 < s.received →
    ∃ t, run s (0xC0 :: List.replicate n 0xC0) = .next (t, [s.acc]) ∧ t.AtReset) ∧
  (∀ (s t u : State) (xs ys : List Byte) (ps qs : List Packet) (n : Nat), run s xs = .next (t, ps) → t.AtReset →
    run t ys = .next (u, qs) →
    ∃ v, run s (xs ++ List.replicate n 0xC0 ++ ys) = .next (v, ps ++ qs) ∧ v.block = u.block)

/-- R75: after every step whose class is END the block is in the reset state; a sequence that ends in a byte
classified END, fed twice, gives its packets twice; and for `[ESC, END]` the condition fails and so does the law. -/
def Obligations.ResetAfterEveryEnd : Prop :=
  (∀ (b : Byte) (s : State), classify s.mode b = .endPkt → ∃ t, feed b s = .next t ∧ t.AtReset) ∧
  (∀ (s : State) (bs : List Byte), s.AtReset → (classes .normal bs).getLast? = some .endPkt →
    ∃ t ps u, run s bs = .next (t, ps) ∧ t.AtReset ∧ run s (bs ++ bs) = .next (u, ps ++ ps) ∧ u.AtReset) ∧
  (∀ c : Config, ∃ t, run (State.resetOf c) [0xDB, 0xC0] = .next (t, []) ∧ t.block = (.normal, 1, [0xC0]))

/-- R76: from the reset state, `n` plain bytes and an END emit the first `MAXLEN` of them as one packet, or nothing when
`n = 0`, and leave the reset state. -/
def Obligations.TruncationKeepsTheFirstBytes : Prop :=
  ∀ (s : State) (vs : List Byte), s.AtReset → (∀ v ∈ vs, v ≠ 0xC0 ∧ v ≠ 0xDB) →
    ∃ t, run s (vs ++ [0xC0]) = .next (t, if vs = [] then [] else [vs.take s.config.maxLen]) ∧ t.AtReset ∧
      (vs.length = s.config.maxLen + 5 → (vs.take s.config.maxLen).length = s.config.maxLen)

/-- R77, which the spec marks as derived: the decoded sequence, walked class by class, and that a stretch without a
byte classified END leaves its first `MAXLEN` bytes in the accumulator, which the next END emits. -/
def Obligations.PacketContentIsTheDecodedSequence : Prop :=
  (∀ (b : Byte) (bs : List Byte),
    decodedSequence .normal [] = [] ∧ decodedSequence .escapePending [] = [] ∧
    decodedSequence .normal (0xDB :: bs) = decodedSequence .escapePending bs ∧
    decodedSequence .escapePending (0xDC :: bs) = 0xC0 :: decodedSequence .normal bs ∧
    decodedSequence .escapePending (0xDD :: bs) = 0xDB :: decodedSequence .normal bs ∧
    (b ≠ 0xDC → b ≠ 0xDD → decodedSequence .escapePending (b :: bs) = b :: decodedSequence .normal bs) ∧
    (b ≠ 0xC0 → b ≠ 0xDB → decodedSequence .normal (b :: bs) = b :: decodedSequence .normal bs)) ∧
  (∀ (s : State) (bs : List Byte), s.AtReset → endFree .normal bs = true →
    ∃ t, run s bs = .next (t, []) ∧ t.acc = (decodedSequence .normal bs).take s.config.maxLen ∧
      t.received = min s.config.maxLen (decodedSequence .normal bs).length ∧
      (∀ b, classify t.mode b = .endPkt → ∃ u, feed b t = .next u ∧ u.out =
        if decodedSequence .normal bs = [] then none
        else some ((decodedSequence .normal bs).take s.config.maxLen)))

/-- R44 (the notation is the spec's decision D15, the expansions it marks as derived): the pseudo-operations'
expansions and what they do when fed in `Normal` mode. -/
def Obligations.PseudoOperationsDoWhatTheyAbbreviate : Prop :=
  (∀ v : Byte, v ≠ 0xC0 → v ≠ 0xDB → lit v = [v]) ∧ lit 0xC0 = [0xDB, 0xDC] ∧ lit 0xDB = [0xDB, 0xDD] ∧
  (∀ vs, pkt vs = vs.flatMap lit ++ [0xC0]) ∧ flush = [0xC0] ∧
  (∀ (v : Byte) (s : State), s.mode = .normal →
    ∃ t, run s (lit v) = .next (t, []) ∧ t.mode = .normal ∧ AppendedBetween v s t) ∧
  (∀ (vs : Packet) (s : State), s.AtReset → vs ≠ [] →
    ∃ t, run s (pkt vs) = .next (t, [vs.take s.config.maxLen]) ∧ t.AtReset) ∧
  (∀ s : State, s.BlockOk → s.mode = .normal →
    ∃ t, run s flush = .next (t, if 0 < s.received then [s.acc] else []) ∧ t.AtReset)

/-- R78, which the spec marks as derived: packets written down with `PKT`, with any number of extra ENDs before,
between and after, decode to themselves, a longer one to its first `MAXLEN` bytes, and leave the reset state; an empty
packet is absorbed. -/
def Obligations.WellFormedInputDecodesToWhatWasSent : Prop :=
  (∀ (s : State) (n : Nat) (sent : List (Packet × Nat)), s.AtReset → (∀ p ∈ sent, p.1 ≠ []) →
    ∃ t, run s (List.replicate n 0xC0 ++ sent.flatMap (fun p => pkt p.1 ++ List.replicate p.2 0xC0)) =
        .next (t, sent.map (fun p => p.1.take s.config.maxLen)) ∧ t.AtReset ∧
      ((∀ p ∈ sent, p.1.length ≤ s.config.maxLen) →
        sent.map (fun p => p.1.take s.config.maxLen) = sent.map Prod.fst)) ∧
  (∀ s : State, s.AtReset → ∃ t, run s (pkt []) = .next (t, []) ∧ t.AtReset)

/-- R80, which the spec marks as derived: from every good state `C0 C0` leaves the reset state, with the packets the
rule names; one `C0` is enough from `Normal` and not from `EscapePending`. -/
def Obligations.TwoEndsResynchronise : Prop :=
  ∀ s : State, s.BlockOk →
    (∃ t ps, run s [0xC0, 0xC0] = .next (t, ps) ∧ t.AtReset ∧
      (s.mode = .normal → ps = if 0 < s.received then [s.acc] else []) ∧
      (s.mode = .escapePending → ps = [(s.acc ++ [0xC0]).take s.config.maxLen])) ∧
    (∃ t ps, run s [0xC0] = .next (t, ps) ∧ (t.AtReset ↔ s.mode = .normal))

/-! ## The ports -/

/-- R90 and R91 (the spec's decisions D2, D3, D7 and D12): in the step of an END with `received > 0` the ports show
the packet, in every other step and at every idle edge `pkt_valid` is 0; `in_ready` is constantly 1. -/
def Obligations.PortsShowThePacketInItsStepOnly : Prop :=
  ∀ s : State, s.BlockOk →
    (∀ e : Event, ∃ t, onEvent e s = .next t ∧ ∀ o, t.Drives o → o.inReady = true ∧
      (o.pktValid = true ↔ e = .byte 0xC0 ∧ s.mode = .normal ∧ 0 < s.received)) ∧
    (s.mode = .normal → 0 < s.received → ∃ t, feed 0xC0 s = .next t ∧ ∀ o, t.Drives o →
      o.pktLen.toNat = s.received ∧ ∀ i, (h : i < s.acc.length) → o.byte i = s.acc[i])

/-- The widths of R85 (the spec's decision D2) are wide enough: in every state of the invariant some port values are
allowed. -/
def Obligations.PortWidthsHoldEveryPacket : Prop := ∀ s : State, s.Inv → ∃ o, s.Drives o
end

