-- ==== Sys2Proof/Laws/State.lean ====
section
/-! SUPPORT. One lemma per field per update of the state, true by `rfl`, so that no later proof unfolds a record update. -/

namespace Sys2Proof.Machine

@[simp] theorem setMode_config (m : Mode) (s : State) : (setMode m s).config = s.config := rfl
@[simp] theorem setMode_mode (m : Mode) (s : State) : (setMode m s).mode = m := rfl
@[simp] theorem setMode_received (m : Mode) (s : State) : (setMode m s).received = s.received := rfl
@[simp] theorem setMode_acc (m : Mode) (s : State) : (setMode m s).acc = s.acc := rfl
@[simp] theorem setMode_out (m : Mode) (s : State) : (setMode m s).out = s.out := rfl
@[simp] theorem setMode_sink (m : Mode) (s : State) : (setMode m s).sink = s.sink := rfl
@[simp] theorem setMode_input (m : Mode) (s : State) : (setMode m s).input = s.input := rfl

@[simp] theorem clear_config (s : State) : (clear s).config = s.config := rfl
@[simp] theorem clear_mode (s : State) : (clear s).mode = .normal := rfl
@[simp] theorem clear_received (s : State) : (clear s).received = 0 := rfl
@[simp] theorem clear_acc (s : State) : (clear s).acc = [] := rfl
@[simp] theorem clear_out (s : State) : (clear s).out = s.out := rfl
@[simp] theorem clear_sink (s : State) : (clear s).sink = s.sink := rfl
@[simp] theorem clear_input (s : State) : (clear s).input = s.input := rfl

@[simp] theorem emit_config (p : Packet) (s : State) : (emit p s).config = s.config := rfl
@[simp] theorem emit_mode (p : Packet) (s : State) : (emit p s).mode = s.mode := rfl
@[simp] theorem emit_received (p : Packet) (s : State) : (emit p s).received = s.received := rfl
@[simp] theorem emit_acc (p : Packet) (s : State) : (emit p s).acc = s.acc := rfl
@[simp] theorem emit_out (p : Packet) (s : State) : (emit p s).out = some p := rfl
@[simp] theorem emit_sink (p : Packet) (s : State) : (emit p s).sink = s.sink ++ [p] := rfl
@[simp] theorem emit_input (p : Packet) (s : State) : (emit p s).input = s.input := rfl

@[simp] theorem emitNothing_config (s : State) : (emitNothing s).config = s.config := rfl
@[simp] theorem emitNothing_mode (s : State) : (emitNothing s).mode = s.mode := rfl
@[simp] theorem emitNothing_received (s : State) : (emitNothing s).received = s.received := rfl
@[simp] theorem emitNothing_acc (s : State) : (emitNothing s).acc = s.acc := rfl
@[simp] theorem emitNothing_out (s : State) : (emitNothing s).out = none := rfl
@[simp] theorem emitNothing_sink (s : State) : (emitNothing s).sink = s.sink := rfl
@[simp] theorem emitNothing_input (s : State) : (emitNothing s).input = s.input := rfl

@[simp] theorem resetEvent_config (s : State) : (resetEvent s).config = s.config := rfl
@[simp] theorem resetEvent_mode (s : State) : (resetEvent s).mode = .normal := rfl
@[simp] theorem resetEvent_received (s : State) : (resetEvent s).received = 0 := rfl
@[simp] theorem resetEvent_acc (s : State) : (resetEvent s).acc = [] := rfl
@[simp] theorem resetEvent_out (s : State) : (resetEvent s).out = none := rfl
@[simp] theorem resetEvent_sink (s : State) : (resetEvent s).sink = s.sink := rfl
@[simp] theorem resetEvent_input (s : State) : (resetEvent s).input = s.input := rfl

@[simp] theorem wait_config (s : State) : (wait s).config = s.config := rfl
@[simp] theorem wait_mode (s : State) : (wait s).mode = s.mode := rfl
@[simp] theorem wait_received (s : State) : (wait s).received = s.received := rfl
@[simp] theorem wait_acc (s : State) : (wait s).acc = s.acc := rfl
@[simp] theorem wait_out (s : State) : (wait s).out = none := rfl
@[simp] theorem wait_sink (s : State) : (wait s).sink = s.sink := rfl
@[simp] theorem wait_input (s : State) : (wait s).input = s.input := rfl

@[simp] theorem State.present_config (m : Mode) (b : Byte) (s : State) : (s.present m b).config = s.config := rfl
@[simp] theorem State.present_mode (m : Mode) (b : Byte) (s : State) : (s.present m b).mode = m := rfl
@[simp] theorem State.present_received (m : Mode) (b : Byte) (s : State) : (s.present m b).received = s.received := rfl
@[simp] theorem State.present_acc (m : Mode) (b : Byte) (s : State) : (s.present m b).acc = s.acc := rfl
@[simp] theorem State.present_out (m : Mode) (b : Byte) (s : State) : (s.present m b).out = s.out := rfl
@[simp] theorem State.present_sink (m : Mode) (b : Byte) (s : State) : (s.present m b).sink = s.sink := rfl
@[simp] theorem State.present_input (m : Mode) (b : Byte) (s : State) : (s.present m b).input = Edge.ofByte b :: s.input := rfl

@[simp] theorem State.resetOf_config (c : Config) : (State.resetOf c).config = c := rfl
@[simp] theorem State.resetOf_mode (c : Config) : (State.resetOf c).mode = .normal := rfl
@[simp] theorem State.resetOf_received (c : Config) : (State.resetOf c).received = 0 := rfl
@[simp] theorem State.resetOf_acc (c : Config) : (State.resetOf c).acc = [] := rfl
@[simp] theorem State.resetOf_out (c : Config) : (State.resetOf c).out = none := rfl
@[simp] theorem State.resetOf_sink (c : Config) : (State.resetOf c).sink = [] := rfl
@[simp] theorem State.resetOf_input (c : Config) : (State.resetOf c).input = [] := rfl

@[simp] theorem State.block_mode (s : State) : s.block.1 = s.mode := rfl
@[simp] theorem State.block_received (s : State) : s.block.2.1 = s.received := rfl
@[simp] theorem State.block_acc (s : State) : s.block.2.2 = s.acc := rfl

/-- The block is in the reset state exactly when each of its three pieces is. -/
theorem State.atReset_iff (s : State) : s.AtReset ↔ s.mode = .normal ∧ s.received = 0 ∧ s.acc = [] := by
  simp [State.AtReset, State.block]

theorem State.resetOf_atReset (c : Config) : (State.resetOf c).AtReset := rfl

end Sys2Proof.Machine
end

