-- ==== Sys2Proof/Laws/Decode.lean ====
section
/-! SUPPORT. Decoding and encoding agree, byte by byte and over streams. -/

namespace Sys2Proof

open Sys2Proof.Machine

/-- The mode `classify` reads is the mode its answer exists in. -/
@[simp] theorem classify_mode (m : Mode) (b : Byte) : (classify m b).mode = m := by
  cases m <;> simp only [classify] <;> (repeat' split) <;> rfl

/-- Every byte is the encoding of its own class. -/
@[simp] theorem encode_classify (m : Mode) (b : Byte) : encode (classify m b) = b := by
  cases m <;> simp only [classify] <;> (repeat' split) <;> simp_all [encode]

/-- `classify` only answers well-formed operations. -/
@[simp] theorem classify_wf (m : Mode) (b : Byte) : (classify m b).wf = true := by
  cases m <;> simp only [classify] <;> (repeat' split) <;> simp_all [Instr.wf]

@[simp] theorem classes_nil (m : Mode) : classes m [] = [] := rfl
@[simp] theorem classes_cons (m : Mode) (b : Byte) (bs : List Byte) :
    classes m (b :: bs) = classify m b :: classes (classify m b).nextMode bs := rfl
@[simp] theorem modeAfter_nil (m : Mode) : modeAfter m [] = m := rfl
@[simp] theorem modeAfter_cons (m : Mode) (b : Byte) (bs : List Byte) :
    modeAfter m (b :: bs) = modeAfter (classify m b).nextMode bs := rfl

/-- A walk over a concatenation goes on in the mode the first part reached. -/
theorem classes_append (m : Mode) (xs ys : List Byte) :
    classes m (xs ++ ys) = classes m xs ++ classes (modeAfter m xs) ys := by
  induction xs generalizing m with
  | nil => rfl
  | cons b bs ih => simp [ih]

theorem modeAfter_append (m : Mode) (xs ys : List Byte) : modeAfter m (xs ++ ys) = modeAfter (modeAfter m xs) ys := by
  induction xs generalizing m with
  | nil => rfl
  | cons b bs ih => simp [ih]

/-- One operation per byte (R36). -/
@[simp] theorem classes_length (m : Mode) (bs : List Byte) : (classes m bs).length = bs.length := by
  induction bs generalizing m with
  | nil => rfl
  | cons b bs ih => simp [ih]

/-- Only END and the three resolvers have the mode or the next mode they have; an introducer is the one way into
`EscapePending` (R45). -/
theorem nextMode_escapePending_iff (i : Instr) : i.nextMode = .escapePending ↔ i = .esc := by
  cases i <;> simp [Instr.nextMode]

theorem classify_eq_esc_iff (m : Mode) (b : Byte) : classify m b = .esc ↔ m = .normal ∧ b = Marker.ESC := by
  cases m <;> simp only [classify] <;> (repeat' split) <;> simp_all [Marker.END, Marker.ESC]

theorem classify_eq_endPkt_iff (m : Mode) (b : Byte) : classify m b = .endPkt ↔ m = .normal ∧ b = Marker.END := by
  cases m <;> simp only [classify] <;> (repeat' split) <;> simp_all

/-- In `Normal` mode every other byte is DATA (R38). -/
theorem classify_normal_of_ne {b : Byte} (h1 : b ≠ Marker.END) (h2 : b ≠ Marker.ESC) : classify .normal b = .data b := by
  simp [classify, h1, h2]

/-- In `EscapePending` mode every other byte is PASS (R38). -/
theorem classify_escapePending_of_ne {b : Byte} (h1 : b ≠ Marker.ESC_END) (h2 : b ≠ Marker.ESC_ESC) :
    classify .escapePending b = .pass b := by
  simp [classify, h1, h2]

/-- A byte is PASS exactly when it is an invalid resolver (R101, `BAD_ESC`). -/
theorem classify_eq_pass_iff (m : Mode) (b c : Byte) :
    classify m b = .pass c ↔ m = .escapePending ∧ b ≠ Marker.ESC_END ∧ b ≠ Marker.ESC_ESC ∧ b = c := by
  cases m <;> simp only [classify] <;> (repeat' split) <;> simp_all

/-- In `EscapePending` mode every class is a resolver: it has a payload and leaves `Normal` (R73). -/
theorem classify_escapePending (b : Byte) :
    ∃ v, payload (classify .escapePending b) = some v ∧ (classify .escapePending b).nextMode = .normal := by
  simp only [classify]
  (repeat' split) <;> exact ⟨_, rfl, rfl⟩

end Sys2Proof
end

