-- ==== Sys2Proof/Laws/Ops.lean ====
section
/-! SUPPORT. What each shared operation can do, said once: `append` and the cells it leaves, `packet`, `resolve`, the fetch
of an edge, and that every operation keeps the invariant and the canonical form of the accumulator. -/

namespace Sys2Proof.Machine

/-! ## `append` -/

theorem storeIndex_of_lt {s : State} (h : s.received < s.config.maxLen) : s.storeIndex = some s.received := by
  simp [State.storeIndex, h]

theorem storeIndex_of_not_lt {s : State} (h : ¬ s.received < s.config.maxLen) : s.storeIndex = none := by
  simp [State.storeIndex, h]

/-- Below the limit `append` stores the byte and counts it. -/
theorem append_of_lt {s : State} (v : Byte) (h : s.received < s.config.maxLen) :
    append v s = { s with acc := s.acc ++ [v], received := s.received + 1 } := by
  simp [append, storeIndex_of_lt h]

/-- At the limit `append` changes nothing. -/
theorem append_of_not_lt {s : State} (v : Byte) (h : ¬ s.received < s.config.maxLen) : append v s = s := by
  simp [append, storeIndex_of_not_lt h]

/-- Everything `append` can do: a field outside the accumulator and the count is untouched. -/
theorem append_cases (v : Byte) (s : State) :
    (s.received < s.config.maxLen ∧ append v s = { s with acc := s.acc ++ [v], received := s.received + 1 }) ∨
    (¬ s.received < s.config.maxLen ∧ append v s = s) := by
  by_cases h : s.received < s.config.maxLen
  · exact .inl ⟨h, append_of_lt v h⟩
  · exact .inr ⟨h, append_of_not_lt v h⟩

@[simp] theorem append_config (v : Byte) (s : State) : (append v s).config = s.config := by
  rcases append_cases v s with ⟨-, h⟩ | ⟨-, h⟩ <;> rw [h]

@[simp] theorem append_mode (v : Byte) (s : State) : (append v s).mode = s.mode := by
  rcases append_cases v s with ⟨-, h⟩ | ⟨-, h⟩ <;> rw [h]

@[simp] theorem append_out (v : Byte) (s : State) : (append v s).out = s.out := by
  rcases append_cases v s with ⟨-, h⟩ | ⟨-, h⟩ <;> rw [h]

@[simp] theorem append_sink (v : Byte) (s : State) : (append v s).sink = s.sink := by
  rcases append_cases v s with ⟨-, h⟩ | ⟨-, h⟩ <;> rw [h]

@[simp] theorem append_input (v : Byte) (s : State) : (append v s).input = s.input := by
  rcases append_cases v s with ⟨-, h⟩ | ⟨-, h⟩ <;> rw [h]

theorem append_received (v : Byte) (s : State) :
    (append v s).received = if s.received < s.config.maxLen then s.received + 1 else s.received := by
  rcases append_cases v s with ⟨hl, h⟩ | ⟨hl, h⟩ <;> rw [h] <;> simp [hl]

theorem append_acc (v : Byte) (s : State) :
    (append v s).acc = if s.received < s.config.maxLen then s.acc ++ [v] else s.acc := by
  rcases append_cases v s with ⟨hl, h⟩ | ⟨hl, h⟩ <;> rw [h] <;> simp [hl]

/-- `append` keeps R17: it counts only under `received < MAXLEN`. -/
theorem append_blockOk (v : Byte) {s : State} (h : s.BlockOk) : (append v s).BlockOk := by
  obtain ⟨hr, ha⟩ := h
  rcases append_cases v s with ⟨hl, h⟩ | ⟨-, h⟩ <;> rw [h]
  · exact ⟨hl, by simp [ha]⟩
  · exact ⟨hr, ha⟩

/-- Truncation keeps the first bytes: in a good state `append` is "put the byte at the end, keep `MAXLEN` bytes". -/
theorem append_acc_take (v : Byte) {s : State} (h : s.BlockOk) :
    (append v s).acc = (s.acc ++ [v]).take s.config.maxLen := by
  obtain ⟨hr, ha⟩ := h
  rw [append_acc]
  split
  · rw [List.take_of_length_le]; simp; omega
  · rw [List.take_append_of_le_length (by omega), List.take_of_length_le (by omega)]

/-! ## The cells -/

/-- In a good state the readable cells are exactly the positions of the accumulator. -/
theorem readCell_eq {s : State} (h : s.BlockOk) (a : Nat) : s.readCell a = s.acc[a]? := by
  simp only [State.readCell]
  split
  · rfl
  · rw [List.getElem?_eq_none]; have := h.2; omega

/-- The cell `append` stores to reads as the stored byte. -/
theorem readCell_append_same {v : Byte} {s : State} (h : s.BlockOk) {a : Nat} (ha : s.storeIndex = some a) :
    (append v s).readCell a = some v := by
  rw [readCell_eq (append_blockOk v h)]
  unfold State.storeIndex at ha
  split at ha
  · rename_i hl
    obtain rfl := Option.some.inj ha
    simp [append_of_lt v hl, ← h.2]
  · cases ha

/-- Every other cell reads as before. -/
theorem readCell_append_other {v : Byte} {s : State} (h : s.BlockOk) {a : Nat} (ha : s.storeIndex ≠ some a) :
    (append v s).readCell a = s.readCell a := by
  rw [readCell_eq (append_blockOk v h), readCell_eq h]
  rcases append_cases v s with ⟨hl, he⟩ | ⟨-, he⟩ <;> rw [he]
  rw [storeIndex_of_lt hl, ne_eq, Option.some.injEq, ← h.2] at ha
  rcases Nat.lt_or_gt_of_ne ha with hlt | hgt
  · rw [List.getElem?_eq_none (by simp; omega), List.getElem?_eq_none (by omega)]
  · rw [List.getElem?_append_left hgt]

/-- In a good state `Packet()` is the whole accumulator. -/
theorem packet_eq {s : State} (h : s.BlockOk) : packet s = s.acc := by
  rw [packet, List.take_of_length_le (by omega)]

/-- The list of cells is in canonical form, whatever the accumulator holds: addresses strictly rising. So every operation
keeps it. -/
theorem cells_wf (s : State) : Memory.wf s.cells := by
  have h : s.cells.map Prod.fst = List.range s.acc.length := by
    simp [State.cells, List.zipIdx_map_snd, List.range_eq_range', Function.comp_def]
  rw [Memory.wf, h]
  exact List.pairwise_lt_range

/-! ## `resolve` -/

@[simp] theorem resolve_config (v : Byte) (s : State) : (resolve v s).config = s.config := by simp [resolve]
@[simp] theorem resolve_mode (v : Byte) (s : State) : (resolve v s).mode = .normal := by simp [resolve]
@[simp] theorem resolve_out (v : Byte) (s : State) : (resolve v s).out = none := by simp [resolve]
@[simp] theorem resolve_sink (v : Byte) (s : State) : (resolve v s).sink = s.sink := by simp [resolve]
@[simp] theorem resolve_input (v : Byte) (s : State) : (resolve v s).input = s.input := by simp [resolve]
@[simp] theorem resolve_received (v : Byte) (s : State) : (resolve v s).received = (append v s).received := by
  simp [resolve]
@[simp] theorem resolve_acc (v : Byte) (s : State) : (resolve v s).acc = (append v s).acc := by simp [resolve]

/-! ## The next edge -/

@[simp] theorem nextEdge_config (s : State) : s.nextEdge.2.config = s.config := by
  unfold State.nextEdge; split <;> rfl

/-- Taking an edge from the input touches nothing but the input. -/
theorem nextEdge_state (s : State) : s.nextEdge.2 = { s with input := s.input.tail } := by
  obtain ⟨c, m, r, a, o, k, i⟩ := s
  cases i <;> rfl

theorem nextEdge_edge (s : State) : s.nextEdge.1 = s.input.headD Edge.quiet := by
  unfold State.nextEdge; split <;> simp_all

@[simp] theorem Edge.quiet_event : Edge.quiet.event = .nothing := rfl
@[simp] theorem Edge.ofByte_event (b : Byte) : (Edge.ofByte b).event = .byte b := rfl

end Sys2Proof.Machine
end

