-- ==== Sys2Proof/Laws/Exec.lean ====
section
/-! SUPPORT. What one operation and one event can do, said once, as a plain function from state to state; every operation
answers a next state. -/

namespace Sys2Proof.Machine

/-- The state an operation leaves. -/
def effect : Instr → State → State
  | .endPkt, s => clear (if 0 < s.received then emit (packet s) s else emitNothing s)
  | .esc, s => emitNothing (setMode .escapePending s)
  | .data b, s => emitNothing (append b s)
  | .escEnd, s => resolve Marker.END s
  | .escEsc, s => resolve Marker.ESC s
  | .pass b, s => resolve b s

/-- Every operation completes, in every state (R41, R100). -/
theorem exec_eq (i : Instr) (s : State) : exec i s = .next (effect i s) := by cases i <;> rfl

/-- The state an event leaves. -/
def eventEffect : Event → State → State
  | .byte b, s => effect (classify s.mode b) s
  | .reset, s => resetEvent s
  | .nothing, s => wait s

theorem onEvent_eq (e : Event) (s : State) : onEvent e s = .next (eventEffect e s) := by
  cases e <;> first | exact exec_eq _ _ | rfl

theorem feed_eq (b : Byte) (s : State) : feed b s = .next (effect (classify s.mode b) s) := exec_eq _ _

/-- One step is the next edge's event in the state the edge was taken from. -/
theorem step_eq (s : State) : step s = .next (eventEffect s.nextEdge.1.event s.nextEdge.2) := onEvent_eq _ _

theorem step_cons {s : State} {e : Edge} {rest : List Edge} (h : s.input = e :: rest) :
    step s = .next (eventEffect e.event { s with input := rest }) := by
  rw [step_eq, nextEdge_state, nextEdge_edge, h]; rfl

theorem step_nil {s : State} (h : s.input = []) : step s = .next (wait s) := by
  rw [step_eq, nextEdge_state, nextEdge_edge, h]
  obtain ⟨c, m, r, a, o, k, i⟩ := s
  subst h
  rfl

/-- The host's two readings of a table word agree: the next step performs what the word decodes to, and nothing of the state
but the mode was changed for it. -/
theorem step_withFetchWord {w : Nat} {i : Instr} (h : decodeTableWord 8 w = some i) (s : State) :
    step (s.withFetchWord 8 w) = exec i { s with mode := i.mode } := by
  have hw : BitVec.ofNat 8 (w % 2 ^ 8) = BitVec.ofNat 8 w := by
    apply BitVec.eq_of_toNat_eq; simp
  simp only [decodeTableWord, decode, if_true, Option.map_some, Option.some.injEq] at h
  subst h
  rw [State.withFetchWord, hw, classify_mode]
  rfl

/-! ## What an operation leaves, field by field -/

@[simp] theorem effect_config (i : Instr) (s : State) : (effect i s).config = s.config := by
  cases i <;> simp [effect]
  split <;> simp

@[simp] theorem effect_input (i : Instr) (s : State) : (effect i s).input = s.input := by
  cases i <;> simp [effect]
  split <;> simp

/-- The mode an operation leaves is the table's next mode, when it is performed in its own mode. -/
theorem effect_mode (i : Instr) (s : State) (h : i.mode = s.mode) : (effect i s).mode = i.nextMode := by
  cases i <;> simp_all [effect, Instr.nextMode, Instr.mode]

theorem effect_classify_mode (b : Byte) (s : State) :
    (effect (classify s.mode b) s).mode = (classify s.mode b).nextMode :=
  effect_mode _ _ (classify_mode _ _)

/-- Only END with a non-empty accumulator has a packet as its result (R71). -/
theorem effect_out (i : Instr) (s : State) :
    (effect i s).out = if i = .endPkt ∧ 0 < s.received then some (packet s) else none := by
  cases i <;> simp [effect]
  split <;> simp

/-- An operation gives the sink its result and nothing else. -/
theorem effect_sink (i : Instr) (s : State) : (effect i s).sink = s.sink ++ (effect i s).out.toList := by
  cases i <;> simp [effect]
  split <;> simp

/-- An operation with a payload leaves the accumulator and count of `append`. -/
theorem effect_of_payload {i : Instr} {v : Byte} (h : payload i = some v) (s : State) :
    (effect i s).acc = (append v s).acc ∧ (effect i s).received = (append v s).received ∧ (effect i s).out = none := by
  cases i <;> simp_all [payload, effect]

theorem effect_esc (s : State) :
    effect .esc s = { s with mode := .escapePending, out := none } := rfl

/-- END leaves the reset state, whether it emits or absorbs (R75). -/
theorem effect_endPkt_atReset (s : State) : (effect .endPkt s).AtReset := by
  rw [State.atReset_iff]; simp [effect]

/-- Operations ignore the edges still to come. -/
theorem effect_input_comm (i : Instr) (s : State) (es : List Edge) :
    effect i { s with input := es } = { effect i s with input := es } := by
  cases i <;>
    simp only [effect, resolve, append, State.storeIndex, clear, emit, emitNothing, setMode, packet] <;>
    (try split) <;> rfl

theorem eventEffect_input_comm (e : Event) (s : State) (es : List Edge) :
    eventEffect e { s with input := es } = { eventEffect e s with input := es } := by
  cases e
  · exact effect_input_comm _ _ _
  · rfl
  · rfl

@[simp] theorem eventEffect_config (e : Event) (s : State) : (eventEffect e s).config = s.config := by
  cases e <;> simp [eventEffect]

@[simp] theorem eventEffect_input (e : Event) (s : State) : (eventEffect e s).input = s.input := by
  cases e <;> simp [eventEffect]

theorem eventEffect_sink (e : Event) (s : State) :
    (eventEffect e s).sink = s.sink ++ (eventEffect e s).out.toList := by
  cases e
  · exact effect_sink _ _
  · simp [eventEffect]
  · simp [eventEffect]

/-! ## The invariant -/

theorem effect_blockOk (i : Instr) {s : State} (h : s.BlockOk) : (effect i s).BlockOk := by
  cases i
  case endPkt => have := effect_endPkt_atReset s; rw [State.atReset_iff] at this; simp [State.BlockOk, this]
  case esc => exact h
  all_goals exact append_blockOk _ h

theorem eventEffect_blockOk (e : Event) {s : State} (h : s.BlockOk) : (eventEffect e s).BlockOk := by
  cases e
  · exact effect_blockOk _ h
  · exact ⟨Nat.zero_le _, rfl⟩
  · exact h

/-- A packet an event hands over has `1..MAXLEN` bytes (R50, R71). -/
theorem eventEffect_out_ok (e : Event) {s : State} (h : s.BlockOk) {p : Packet} (hp : (eventEffect e s).out = some p) :
    s.PacketOk p := by
  cases e
  case byte b =>
    rw [eventEffect, effect_out] at hp
    split at hp
    · rename_i hc
      obtain rfl := Option.some.inj hp
      rw [packet_eq h]
      exact ⟨by have := h.2; omega, by have := h.1; have := h.2; omega⟩
    · cases hp
  · simp [eventEffect] at hp
  · simp [eventEffect] at hp

end Sys2Proof.Machine
end

