-- ==== Sys2Proof/Laws/Stream.lean ====
section
/-! SUPPORT. A run is a fold of the one-event function, and what a stretch without END leaves. -/

namespace Sys2Proof.Machine

/-- The state after a sequence of events. -/
def runState (s : State) (es : List Event) : State := es.foldl (fun t e => eventEffect e t) s

/-- The packets a sequence of events emits. -/
def runPackets : State → List Event → List Packet
  | _, [] => []
  | s, e :: rest => (eventEffect e s).out.toList ++ runPackets (eventEffect e s) rest

@[simp] theorem runState_nil (s : State) : runState s [] = s := rfl
@[simp] theorem runState_cons (s : State) (e : Event) (es : List Event) :
    runState s (e :: es) = runState (eventEffect e s) es := rfl
@[simp] theorem runPackets_nil (s : State) : runPackets s [] = [] := rfl
@[simp] theorem runPackets_cons (s : State) (e : Event) (es : List Event) :
    runPackets s (e :: es) = (eventEffect e s).out.toList ++ runPackets (eventEffect e s) es := rfl

/-- Every run completes, with the folded state and the collected packets. -/
theorem runEvents_eq (s : State) (es : List Event) : runEvents s es = .next (runState s es, runPackets s es) := by
  induction es generalizing s with
  | nil => rfl
  | cons e es ih => simp [runEvents, onEvent_eq, ih]

theorem run_eq (s : State) (bs : List Byte) :
    run s bs = .next (runState s (bs.map .byte), runPackets s (bs.map .byte)) := runEvents_eq _ _

theorem runState_append (s : State) (xs ys : List Event) : runState s (xs ++ ys) = runState (runState s xs) ys := by
  simp [runState, List.foldl_append]

theorem runPackets_append (s : State) (xs ys : List Event) :
    runPackets s (xs ++ ys) = runPackets s xs ++ runPackets (runState s xs) ys := by
  induction xs generalizing s with
  | nil => rfl
  | cons e es ih => simp [ih]

@[simp] theorem runState_config (s : State) (es : List Event) : (runState s es).config = s.config := by
  induction es generalizing s with
  | nil => rfl
  | cons e es ih => simp [ih]

theorem runState_blockOk (es : List Event) {s : State} (h : s.BlockOk) : (runState s es).BlockOk := by
  induction es generalizing s with
  | nil => exact h
  | cons e es ih => exact ih (eventEffect_blockOk e h)

/-- The mode after a run of bytes is the walk's. -/
theorem runState_mode (s : State) (bs : List Byte) : (runState s (bs.map .byte)).mode = modeAfter s.mode bs := by
  induction bs generalizing s with
  | nil => rfl
  | cons b bs ih => simp [ih, eventEffect, effect_classify_mode]

/-- The sink gains exactly the packets of the run. -/
theorem runState_sink (s : State) (es : List Event) : (runState s es).sink = s.sink ++ runPackets s es := by
  induction es generalizing s with
  | nil => simp
  | cons e es ih => simp [ih, eventEffect_sink]

/-- A run ignores the edges still to come. -/
theorem runState_input_comm (es : List Event) (s : State) (x : List Edge) :
    runState { s with input := x } es = { runState s es with input := x } := by
  induction es generalizing s with
  | nil => rfl
  | cons e es ih => simp only [runState_cons, eventEffect_input_comm, ih]

/-- What an event leaves in the block and on the ports depends on the block and `MAXLEN` alone. -/
theorem eventEffect_block_congr {s t : State} (h : s.block = t.block) (hc : s.config = t.config) (e : Event) :
    (eventEffect e s).block = (eventEffect e t).block ∧ (eventEffect e s).out = (eventEffect e t).out := by
  obtain ⟨c, m, r, a, o, k, i⟩ := s
  obtain ⟨c', m', r', a', o', k', i'⟩ := t
  simp only [State.block, Prod.mk.injEq] at h hc
  obtain ⟨rfl, rfl, rfl⟩ := h
  subst hc
  cases e
  case byte b =>
    simp only [eventEffect]
    cases classify m b <;>
      simp only [effect, resolve, append, State.storeIndex, clear, emit, emitNothing, setMode, packet, State.block] <;>
      (try split) <;> simp
  all_goals exact ⟨rfl, rfl⟩

/-- Two runs that start in the same block state with the same `MAXLEN` emit the same packets and end in the same one. -/
theorem run_block_congr (es : List Event) {s t : State} (h : s.block = t.block) (hc : s.config = t.config) :
    (runState s es).block = (runState t es).block ∧ runPackets s es = runPackets t es := by
  induction es generalizing s t with
  | nil => exact ⟨h, rfl⟩
  | cons e es ih =>
    obtain ⟨hb, ho⟩ := eventEffect_block_congr h hc e
    obtain ⟨h1, h2⟩ := ih hb (by simpa using hc)
    exact ⟨h1, by rw [runPackets_cons, runPackets_cons, ho, h2]⟩

/-! ## Stretches without END -/

theorem decodedSequence_cons (m : Mode) (b : Byte) (bs : List Byte) :
    decodedSequence m (b :: bs) =
      (payload (classify m b)).toList ++ decodedSequence (classify m b).nextMode bs := by
  simp only [decodedSequence, classes_cons, List.filterMap_cons]
  cases payload (classify m b) <;> rfl

theorem endFree_cons (m : Mode) (b : Byte) (bs : List Byte) :
    endFree m (b :: bs) = true ↔ classify m b ≠ .endPkt ∧ endFree (classify m b).nextMode bs = true := by
  have hc : (Instr.endPkt == classify m b) = false ↔ classify m b ≠ .endPkt := by
    rw [beq_eq_false_iff_ne]; exact ne_comm
  simp only [endFree, classes_cons, List.contains_cons, Bool.not_or, Bool.and_eq_true, Bool.not_eq_true', hc]

/-- A stretch without a byte `0xC0` has no byte classified END. -/
theorem endFree_of_no_end (m : Mode) {bs : List Byte} (h : Marker.END ∉ bs) : endFree m bs = true := by
  induction bs generalizing m with
  | nil => rfl
  | cons b bs ih =>
    rw [List.mem_cons, not_or] at h
    refine (endFree_cons m b bs).2 ⟨?_, ih _ h.2⟩
    rw [ne_eq, classify_eq_endPkt_iff]
    exact fun hc => h.1 hc.2.symm

/-- One byte that is not END puts its payload at the end of the accumulator and keeps the first `MAXLEN` bytes. -/
theorem effect_acc_take {s : State} (h : s.BlockOk) {i : Instr} (hi : i ≠ .endPkt) :
    (effect i s).acc = (s.acc ++ (payload i).toList).take s.config.maxLen := by
  cases hp : payload i with
  | some v => rw [(effect_of_payload hp s).1, append_acc_take v h]; rfl
  | none =>
    have : (effect i s).acc = s.acc := by cases i <;> simp_all [payload, effect]
    rw [this, Option.toList_none, List.append_nil, List.take_of_length_le (by have := h.1; have := h.2; omega)]

/-- Keeping the first `n` bytes early or late comes to the same. -/
theorem take_take_append (n : Nat) (xs ys : List Byte) : (xs.take n ++ ys).take n = (xs ++ ys).take n := by
  simp only [List.take_append, List.take_take, List.length_take, Nat.min_self]
  rcases Nat.le_total xs.length n with h | h
  · rw [Nat.min_eq_right h]
  · rw [Nat.min_eq_left h, Nat.sub_self, Nat.sub_eq_zero_of_le h]

/-- R77 from any good state: the accumulator ends as the first `MAXLEN` bytes of what it held followed by the decoded
sequence, and nothing is emitted. -/
theorem runState_acc_of_endFree (bs : List Byte) {s : State} (h : s.BlockOk) (he : endFree s.mode bs = true) :
    (runState s (bs.map .byte)).acc = (s.acc ++ decodedSequence s.mode bs).take s.config.maxLen ∧
    runPackets s (bs.map .byte) = [] := by
  induction bs generalizing s with
  | nil => exact ⟨by simp [decodedSequence]; have := h.1; have := h.2; omega, rfl⟩
  | cons b bs ih =>
    obtain ⟨hne, he⟩ := (endFree_cons _ _ _).1 he
    have hm := effect_classify_mode b s
    obtain ⟨ha, hp⟩ := ih (effect_blockOk (classify s.mode b) h) (by rw [hm]; exact he)
    constructor
    · rw [List.map_cons, runState_cons, eventEffect, ha, hm, effect_config, effect_acc_take h hne, take_take_append,
        decodedSequence_cons, List.append_assoc]
    · simp [eventEffect, effect_out, hne, hp]

/-- Every byte of a stretch without END is an introducer or appends one byte (R72). -/
theorem decodedSequence_length (m : Mode) (bs : List Byte) (he : endFree m bs = true) :
    (decodedSequence m bs).length + introducers m bs = bs.length := by
  induction bs generalizing m with
  | nil => rfl
  | cons b bs ih =>
    obtain ⟨hne, he⟩ := (endFree_cons _ _ _).1 he
    have := ih _ he
    rw [decodedSequence_cons, introducers, classes_cons, List.count_cons, List.length_append, List.length_cons]
    rw [introducers] at this
    cases hc : classify m b <;> simp_all [payload] <;> omega

end Sys2Proof.Machine
end

