-- ==== Sys2Proof/Laws/Core.lean ====
section
/-! SUPPORT. The host's `k`-step run of the machine, one step at a time. -/

namespace Sys2Proof.Machine

@[simp] theorem core_run_zero (s : State) : Host.Core.run Sys2Proof.core 0 s = .next s := rfl

/-- One more step of the host's run is the next edge's event. -/
theorem core_run_succ (n : Nat) (s : State) :
    Host.Core.run Sys2Proof.core (n + 1) s =
      Host.Core.run Sys2Proof.core n (eventEffect s.nextEdge.1.event s.nextEdge.2) := by
  have h : Sys2Proof.core.step s = .next (eventEffect s.nextEdge.1.event s.nextEdge.2) := step_eq s
  simp only [Host.Core.run, h]

end Sys2Proof.Machine
end

