-- ==== Sys2Proof/Laws/Flags.lean ====
section
/-! SUPPORT. When each anomaly occurs, said once by membership and once by class. -/

namespace Sys2Proof.Machine

theorem mem_anomalies (a : Anomaly) (s : State) (b : Byte) :
    a ∈ anomalies s b ↔ a.occurs s (classify s.mode b) = true := by
  cases a <;> simp [anomalies]

/-- The anomalies of a step, class by class. -/
theorem anomalies_eq (s : State) (b : Byte) : anomalies s b =
    match classify s.mode b with
    | .endPkt => if s.received = 0 then [.dupEnd] else []
    | .esc => []
    | .data _ | .escEnd | .escEsc => if s.received = s.config.maxLen then [.oversize] else []
    | .pass _ => if s.received = s.config.maxLen then [.badEsc, .oversize] else [.badEsc] := by
  unfold anomalies
  cases classify s.mode b <;>
    simp only [List.filter, Anomaly.occurs, payload, State.full, Option.isSome, Bool.true_and, Bool.false_and] <;>
    (repeat' split) <;> simp_all

end Sys2Proof.Machine
end

