-- ==== Sys2Proof/Laws/PerInstr.lean ====
section
/-! SUPPORT. Statements made per operation: the byte an operation is encoded as reads back as that operation in its mode. -/

namespace Sys2Proof.Laws.EncodedByteReadsBack

/-- A well-formed operation's byte, classified in the operation's mode, is the operation. -/
def Statement (i : Instr) : Prop := i.wf = true → classify i.mode (encode i) = i

theorem endPkt : Statement .endPkt := fun _ => rfl

theorem esc : Statement .esc := fun _ => rfl

theorem data (b : Byte) : Statement (.data b) := by
  intro h
  simp only [Instr.wf, Bool.and_eq_true, bne_iff_ne, ne_eq] at h
  simp [Instr.mode, encode, classify, h]

theorem escEnd : Statement .escEnd := fun _ => rfl

theorem escEsc : Statement .escEsc := fun _ => rfl

theorem pass (b : Byte) : Statement (.pass b) := by
  intro h
  simp only [Instr.wf, Bool.and_eq_true, bne_iff_ne, ne_eq] at h
  simp [Instr.mode, encode, classify, h]

end Sys2Proof.Laws.EncodedByteReadsBack
end

