-- ==== Sys2Proof/Tests/Slice0.lean ====
section
/-! SUPPORT. The model's own tests: the WellFormed checks, words written out from the spec's encodings, one-step vectors of
spec/95_test_vectors.md, and for each statement with hypotheses a concrete case that meets them. -/

namespace Sys2Proof.Tests

open Sys2Proof Sys2Proof.Machine

/-- The spec's state `(mode, received, acc)` for a given `MAXLEN`, nothing presented or emitted yet. -/
def st (c : Config) (m : Mode) (acc : List Byte) : State :=
  { State.resetOf c with mode := m, received := acc.length, acc := acc }

/-- The block's state and the result after one step, if there is a next state. -/
def seen : Host.Outcome State Fault Refusal → Option ((Mode × Nat × List Byte) × Option Packet)
  | .next t => some (t.block, t.out)
  | .fault _ => none
  | .refused _ => none

/-- The step that accepts the byte `b`, through the input edge. -/
def fed (b : Byte) (s : State) : Option ((Mode × Nat × List Byte) × Option Packet) :=
  seen (step { s with input := [Edge.ofByte b] })

/-! ## WellFormed refuses the ill-formed (R38, `excludes`) -/

theorem test_wf_refuses_data_end : (Instr.data 0xC0).wf = false := by decide
theorem test_wf_refuses_data_esc : (Instr.data 0xDB).wf = false := by decide
theorem test_wf_refuses_pass_esc_end : (Instr.pass 0xDC).wf = false := by decide
theorem test_wf_refuses_pass_esc_esc : (Instr.pass 0xDD).wf = false := by decide
theorem test_wf_accepts_markers_of_the_other_mode :
    (Instr.data 0xDC).wf = true ∧ (Instr.data 0xDD).wf = true ∧ (Instr.pass 0xC0).wf = true ∧
    (Instr.pass 0xDB).wf = true := by decide

/-- R4: `MAXLEN = 0` is refused. -/
theorem test_config_refuses_zero : Config.ofMaxLen? 0 = none := by decide

/-! ## Words written out from the table's encodings; the neighbours of the markers (R40, VN13 to VN16) -/

theorem test_decode_END : classify .normal 0b11000000 = .endPkt := by decide
theorem test_decode_ESC : classify .normal 0b11011011 = .esc := by decide
theorem test_decode_DATA : classify .normal 0b01000001 = .data 0x41 := by decide
theorem test_decode_ESC_END : classify .escapePending 0b11011100 = .escEnd := by decide
theorem test_decode_ESC_ESC : classify .escapePending 0b11011101 = .escEsc := by decide
theorem test_decode_PASS : classify .escapePending 0b10011001 = .pass 0x99 := by decide
theorem test_decode_data_at_range_ends :
    classify .normal 0x00 = .data 0x00 ∧ classify .normal 0xBF = .data 0xBF ∧ classify .normal 0xC1 = .data 0xC1 ∧
    classify .normal 0xDA = .data 0xDA ∧ classify .normal 0xDC = .data 0xDC ∧ classify .normal 0xDD = .data 0xDD ∧
    classify .normal 0xDE = .data 0xDE ∧ classify .normal 0xFF = .data 0xFF := by decide
theorem test_decode_pass_at_range_ends :
    classify .escapePending 0x00 = .pass 0x00 ∧ classify .escapePending 0xC0 = .pass 0xC0 ∧
    classify .escapePending 0xDB = .pass 0xDB ∧ classify .escapePending 0xDE = .pass 0xDE ∧
    classify .escapePending 0xFF = .pass 0xFF := by decide

/-- The host's two definitions agree on the table words with fixed bits and on one data byte: from reset the next step
performs what the word decodes to. Expected results: VN1, VN6, VN9, VE1, VE5. -/
theorem test_fetch_word_runs :
    [0xC0, 0xDB, 0x00, 0xDC, 0xDD].map (fun w => seen (step (State.reset.withFetchWord 8 w))) =
      [some ((.normal, 0, []), none), some ((.escapePending, 0, []), none), some ((.normal, 1, [0x00]), none),
       some ((.normal, 1, [0xC0]), none), some ((.normal, 1, [0xDB]), none)] := by decide

/-! ## One-step vectors (spec/95_test_vectors.md part 2) -/

/-- VN1. -/
theorem test_END_absorbed : fed 0xC0 (st { maxLen := 100 } .normal []) = some ((.normal, 0, []), none) := by decide
/-- VN3: an emitted packet may hold marker values. -/
theorem test_END_emits :
    fed 0xC0 (st { maxLen := 100 } .normal [0xC0, 0xDB]) = some ((.normal, 0, []), some [0xC0, 0xDB]) := by decide
/-- VN7. -/
theorem test_ESC : fed 0xDB (st { maxLen := 100 } .normal [0x41]) = some ((.escapePending, 1, [0x41]), none) := by
  decide
/-- VN8: the mode changes also when the accumulator is full. -/
theorem test_ESC_full :
    fed 0xDB (st { maxLen := 2 } .normal [0x41, 0x42]) = some ((.escapePending, 2, [0x41, 0x42]), none) := by decide
/-- VN11: `DC` is data in `Normal` mode. -/
theorem test_DATA_marker : fed 0xDC (st { maxLen := 100 } .normal [0x41]) = some ((.normal, 2, [0x41, 0xDC]), none) := by
  decide
/-- VN18: dropped when full. -/
theorem test_DATA_dropped :
    fed 0x43 (st { maxLen := 2 } .normal [0x41, 0x42]) = some ((.normal, 2, [0x41, 0x42]), none) := by decide
/-- VE3: the literal fills the accumulator. -/
theorem test_ESC_END :
    fed 0xDC (st { maxLen := 3 } .escapePending [0x01, 0x02]) = some ((.normal, 3, [0x01, 0x02, 0xC0]), none) := by
  decide
/-- VE4: dropped when full, and the mode still returns to `Normal`. -/
theorem test_ESC_END_full :
    fed 0xDC (st { maxLen := 3 } .escapePending [0x01, 0x02, 0x03]) = some ((.normal, 3, [0x01, 0x02, 0x03]), none) := by
  decide
/-- VE6. -/
theorem test_ESC_ESC :
    fed 0xDD (st { maxLen := 100 } .escapePending [0x41]) = some ((.normal, 2, [0x41, 0xDB]), none) := by decide
/-- VE7. -/
theorem test_ESC_ESC_full : fed 0xDD (st { maxLen := 1 } .escapePending [0x41]) = some ((.normal, 1, [0x41]), none) := by
  decide
/-- VE9: `C0` after an introducer is data and ends nothing. -/
theorem test_PASS_end : fed 0xC0 (st { maxLen := 100 } .escapePending [0x41]) = some ((.normal, 2, [0x41, 0xC0]), none) := by
  decide
/-- VE11: `DB` after an introducer is data, and the mode is `Normal`. -/
theorem test_PASS_esc : fed 0xDB (st { maxLen := 100 } .escapePending [0x41]) = some ((.normal, 2, [0x41, 0xDB]), none) := by
  decide
/-- VE15: the one kind of step with two anomalies. -/
theorem test_two_anomalies :
    anomalies (st { maxLen := 4 } .escapePending [0x01, 0x02, 0x03, 0x04]) 0xC0 = [.badEsc, .oversize] := by decide
/-- VN1 and VN18, column anom. -/
theorem test_anomalies_normal :
    anomalies (st { maxLen := 100 } .normal []) 0xC0 = [.dupEnd] ∧
    anomalies (st { maxLen := 2 } .normal [0x41, 0x42]) 0x43 = [.oversize] := by decide
/-- VR2: reset cancels a pending escape. -/
theorem test_reset_cancels_escape :
    seen (step { st { maxLen := 100 } .escapePending [0x41] with input := [Edge.restart false 0] }) =
      some ((.normal, 0, []), none) := by decide
/-- VR4: reset wins over an END at the same edge, and nothing is emitted. -/
theorem test_reset_wins :
    seen (step { st { maxLen := 100 } .normal [0x41, 0x42] with input := [Edge.restart true 0xC0] }) =
      some ((.normal, 0, []), none) := by decide
/-- R88: an edge with nothing presented. -/
theorem test_wait :
    seen (step { st { maxLen := 100 } .escapePending [0x41] with input := [Edge.quiet] }) =
      some ((.escapePending, 1, [0x41]), none) := by decide

/-! ## Witnesses: a concrete case that meets a statement's hypotheses -/

/-- A good state below the limit, one at the limit, and one waiting for a resolver, used below. -/
theorem witness_good_states :
    (st { maxLen := 3 } .normal [0x41]).Inv ∧ (st { maxLen := 2 } .normal [0x41, 0x42]).Inv ∧
    (st { maxLen := 2 } .escapePending [0x41, 0x42]).Inv ∧ (st { maxLen := 1 } .escapePending []).Inv ∧
    (st { maxLen := 1 } .normal []).Inv := by decide

/-- MaxLenIsPositiveFixedAndBoundsPackets, EveryStepKeepsTheInvariant: a good state with a next state, here one that
emits a packet of the greatest length. -/
theorem witness_step_next : ∃ t, step { st { maxLen := 1 } .normal [0xFF] with input := [Edge.ofByte 0xC0] } = .next t ∧
    t.out = some [0xFF] ∧ ({ st { maxLen := 1 } .normal [0xFF] with input := [Edge.ofByte 0xC0] } : State).Inv :=
  ⟨_, rfl, by decide, by decide⟩

/-- CountFitsItsWidth, PacketReadsTheReceivedCells, CellValuesNeverSteerTheBlock: good states, full, that differ in a cell
only. -/
theorem witness_full_states :
    (st { maxLen := 1 } .normal [0x41]).BlockOk ∧ (st { maxLen := 1 } .normal [0x42]).BlockOk ∧
    (st { maxLen := 1 } .normal [0x41]).received = (st { maxLen := 1 } .normal [0x42]).received := by decide

/-- MaxLenIsPositiveFixedAndBoundsPackets: the least `MAXLEN` that can be had. -/
theorem witness_least_maxLen : (Config.ofMaxLen? 1).map Config.maxLen = some 1 := by decide

/-- OpcodeMapOfBothModes: each range at its ends. -/
theorem witness_opcode_ranges :
    (0x00 : Byte).toNat ≤ 0xBF ∧ (0xBF : Byte).toNat ≤ 0xBF ∧ (0xC1 ≤ (0xC1 : Byte).toNat ∧ (0xC1 : Byte).toNat ≤ 0xDA) ∧
    (0xC1 ≤ (0xDA : Byte).toNat ∧ (0xDA : Byte).toNat ≤ 0xDA) ∧ 0xDE ≤ (0xDE : Byte).toNat ∧ 0xDE ≤ (0xFF : Byte).toNat := by
  decide

/-- OpcodeMapOfBothModes, TransitionTable, EscapeLastsExactlyOneByte and the six operations: states in each mode. -/
theorem witness_modes :
    (st { maxLen := 3 } .normal [0x41]).mode = .normal ∧ (st { maxLen := 1 } .escapePending []).mode = .escapePending ∧
    (st { maxLen := 3 } .normal [0x41]).BlockOk ∧ (st { maxLen := 1 } .escapePending []).BlockOk := by decide

/-- The bytes of the operation statements at the neighbours of the excluded values. -/
theorem witness_operation_bytes :
    (0xBF : Byte) ≠ 0xC0 ∧ (0xBF : Byte) ≠ 0xDB ∧ (0xDC : Byte) ≠ 0xC0 ∧ (0xDC : Byte) ≠ 0xDB ∧
    (0xDE : Byte) ≠ 0xDC ∧ (0xDE : Byte) ≠ 0xDD ∧ (0xDB : Byte) ≠ 0xDC ∧ (0xDB : Byte) ≠ 0xDD := by decide

/-- EveryByteIsOneOperationOfItsMode: a well-formed operation, its mode and its byte. -/
theorem witness_operation_of_byte :
    (Instr.pass 0xC0).wf = true ∧ (Instr.pass 0xC0).mode = .escapePending ∧ encode (.pass 0xC0) = 0xC0 := by decide

/-- OperationStreamsRoundTrip: a chained sequence with all six operations. -/
theorem witness_chained :
    Instr.chained .normal [.data 0x41, .esc, .escEnd, .esc, .escEsc, .esc, .pass 0xDB, .endPkt] = true := by decide

/-- PayloadIsWhatIsAppended, AppendStoresAtReceivedOrDrops, AppendingOperationsFrame: the four appending operations,
below and at the limit. -/
theorem witness_payloads :
    payload (.data 0x41) = some 0x41 ∧ payload .escEnd = some 0xC0 ∧ payload .escEsc = some 0xDB ∧
    payload (.pass 0xC0) = some 0xC0 ∧ (st { maxLen := 3 } .normal [0x41]).storeIndex = some 1 ∧
    (st { maxLen := 2 } .normal [0x41, 0x42]).storeIndex = none := by decide

/-- EndEmitsTheAccumulatorAndClears: a good empty state and a good non-empty one. -/
theorem witness_end :
    (st { maxLen := 1 } .normal []).received = 0 ∧ 0 < (st { maxLen := 3 } .normal [0x41]).received := by decide

/-- StepRunsTheDecodedOperation: an edge with a byte, and what is decoded from it. -/
theorem witness_step_decodes :
    ({ st { maxLen := 1 } .escapePending [] with input := [Edge.ofByte 0xDC, Edge.quiet] } : State).input =
      Edge.ofByte 0xDC :: [Edge.quiet] ∧
    (Edge.ofByte 0xDC).rst = false ∧ (Edge.ofByte 0xDC).inValid = true ∧
    decode .escapePending ((Edge.ofByte 0xDC).inData :: [0x41]) = some (.escEnd, [0x41]) := by decide

/-- WaitingChangesNothing: quiet edges, and more steps than edges. -/
theorem witness_waiting :
    ∀ e ∈ ({ st { maxLen := 1 } .escapePending [] with input := [Edge.quiet, Edge.quiet] } : State).input.take 3,
      e.rst = false ∧ e.inValid = false := by decide

/-- ResetWinsOverAByteAtTheSameEdge and TransportFailureIsNoByte: the edges they speak of, and port values they allow. -/
theorem witness_edges :
    (Edge.restart true 0xC0) = { rst := true, inValid := true, inData := 0xC0 } ∧
    ReadResult.transportError.edge = Edge.quiet ∧ ReadResult.timeout.edge = Edge.quiet := by decide

/-- StepsOfTheMachineAreTheRun: edges of all three kinds with one still to come. -/
theorem witness_edges_and_later :
    ({ State.reset with input := [Edge.ofByte 0x41, Edge.quiet, Edge.restart true 0xC0, Edge.ofByte 0xDC] } : State).input =
      [Edge.ofByte 0x41, Edge.quiet, Edge.restart true 0xC0] ++ [Edge.ofByte 0xDC] := by decide

/-- AnomaliesOccurExactlyAndAreResolvedInTheStep: each anomaly occurs somewhere (VN1, VE8, VN18). -/
theorem witness_anomalies :
    .dupEnd ∈ anomalies (st { maxLen := 100 } .normal []) 0xC0 ∧
    .badEsc ∈ anomalies (st { maxLen := 100 } .escapePending []) 0x99 ∧
    .oversize ∈ anomalies (st { maxLen := 2 } .normal [0x41, 0x42]) 0x43 := by decide

/-- StreamWithoutEndCountsItsBytes: the streams V8-1 and V8-2, and the empty one, have no `0xC0`. -/
theorem witness_no_end :
    (0xC0 : Byte) ∉ ([0xDB, 0xDC] : List Byte) ∧ (0xC0 : Byte) ∉ ([0xDB, 0xDB] : List Byte) ∧
    (0xC0 : Byte) ∉ ([] : List Byte) ∧ introducers .normal [0xDB, 0xDC] = 1 ∧ introducers .normal [0xDB, 0xDB] = 1 := by
  decide

/-- EscapeLastsExactlyOneByte: the first and the last place of a run of `0xDB`. -/
theorem witness_run_of_esc : 0 < 2 ∧ 1 < 2 ∧ (classes .normal (List.replicate 2 0xDB)) = [.esc, .pass 0xDB] := by decide

/-- DuplicateEndsAreAbsorbed: a run that ends in the reset state with a packet, and one that goes on from there. -/
theorem witness_run_to_reset :
    ∃ t u, run State.reset [0x41, 0xC0] = .next (t, [[0x41]]) ∧ t.AtReset ∧ run t [0x42] = .next (u, []) :=
  ⟨_, _, rfl, by decide, rfl⟩

/-- ResetAfterEveryEnd: a sequence whose last byte is classified END; `DB C0` is not one. -/
theorem witness_last_is_end :
    State.reset.AtReset ∧ (classes .normal [0x41, 0xC0]).getLast? = some .endPkt ∧
    classify State.reset.mode 0xC0 = .endPkt ∧ (classes .normal [0xDB, 0xC0]).getLast? = some (.pass 0xC0) := by decide

/-- TruncationKeepsTheFirstBytes: plain bytes, `MAXLEN + 5` of them for `MAXLEN = 1`. -/
theorem witness_plain_bytes :
    (∀ v ∈ ([0xDC, 0xDD, 0x00, 0xFF, 0xC1, 0xDA] : List Byte), v ≠ 0xC0 ∧ v ≠ 0xDB) ∧
    ([0xDC, 0xDD, 0x00, 0xFF, 0xC1, 0xDA] : List Byte).length = (State.resetOf { maxLen := 1 }).config.maxLen + 5 ∧
    (State.resetOf { maxLen := 1 }).AtReset := by decide

/-- PacketContentIsTheDecodedSequence: a stretch with `0xC0` as a resolver, no byte classified END, and an END after
it. -/
theorem witness_end_free :
    endFree .normal [0x41, 0xDB, 0xC0] = true ∧ decodedSequence .normal [0x41, 0xDB, 0xC0] = [0x41, 0xC0] ∧
    classify (modeAfter .normal [0x41, 0xDB, 0xC0]) 0xC0 = .endPkt := by decide

/-- PseudoOperationsDoWhatTheyAbbreviate and WellFormedInputDecodesToWhatWasSent: non-empty packets that fit, one with
both markers in it. -/
theorem witness_sent :
    (∀ p ∈ ([([0xC0, 0xDB], 2), ([0x43], 0)] : List (Packet × Nat)), p.1 ≠ []) ∧
    (∀ p ∈ ([([0xC0, 0xDB], 2), ([0x43], 0)] : List (Packet × Nat)), p.1.length ≤ State.reset.config.maxLen) ∧
    pkt [0xC0, 0x41] = [0xDB, 0xDC, 0x41, 0xC0] := by decide

/-- ReachableStatesAreExactlyTheAllowedOnes: a combination at the limit, in `EscapePending` mode. -/
theorem witness_allowed_combination :
    ((Mode.escapePending, 2, [0x41, 0x42]) : Mode × Nat × List Byte).2.1 ≤ Config.maxLen { maxLen := 2 } ∧
    ((Mode.escapePending, 2, [0x41, 0x42]) : Mode × Nat × List Byte).2.2.length = 2 := by decide

/-- PortsShowThePacketInItsStepOnly and ResetWinsOverAByteAtTheSameEdge: port values the spec allows in the step that
emitted `[0xFF]` with `MAXLEN = 1` (one bit of length), and in a step that emitted nothing. -/
theorem witness_ports :
    ({ st { maxLen := 1 } .normal [] with out := some [0xFF] } : State).Drives
      { inReady := true, pktValid := true, pktLen := 1#1, pktData := 0xFF#8 } ∧
    (st { maxLen := 1 } .normal []).Drives { inReady := true, pktValid := false, pktLen := 1#1, pktData := 0x5A#8 } := by
  refine ⟨⟨rfl, rfl, ?_⟩, ⟨rfl, rfl, nofun⟩⟩
  intro p hp
  obtain rfl := Option.some.inj hp
  refine ⟨rfl, fun i hi => ?_⟩
  obtain rfl : i = 0 := by simpa using hi
  rfl

end Sys2Proof.Tests
end

section
/-! Proofs of the statements about the accumulator's three named operations (spec/20_memory.md): `Append` (R27), `Packet`
(R29) and `Clear` (R33). -/

namespace Sys2Proof.Machine

/-! ## `append` -/

/-- `append` only ever adds at the end: what was accumulated stays first (R27). -/
theorem append_acc_extends (v : Byte) (s : State) : s.acc <+: (append v s).acc := by
  rcases append_cases v s with ⟨-, h⟩ | ⟨-, h⟩ <;> rw [h]
  exact ⟨[v], rfl⟩

/-- Settles O16: `append` case by case at the limit, and an operation with a payload leaves what `append` leaves. -/
theorem appendStoresAtReceivedOrDrops : Obligations.AppendStoresAtReceivedOrDrops := by
  intro v s
  refine ⟨fun hlt => ⟨storeIndex_of_lt hlt, append_of_lt v hlt⟩,
    fun hge => ⟨storeIndex_of_not_lt hge, append_of_not_lt v hge⟩,
    append_mode v s, append_acc_extends v s, fun i hi => ?_⟩
  obtain ⟨hacc, hrec, -⟩ := effect_of_payload hi s
  exact ⟨_, exec_eq i s, hacc, hrec⟩

/-! ## `packet` -/

/-- In a good state `Packet()` is "a value of length `received`" (R29). -/
theorem packet_length {s : State} (h : s.BlockOk) : (packet s).length = s.received := by
  rw [packet_eq h, h.2]

/-- The positions of `Packet()` are the readable cells, in every state. -/
theorem packet_getElem? (s : State) (a : Nat) : (packet s)[a]? = s.readCell a := List.getElem?_take

/-- In a good state with `received > 0`, `Packet()` is a packet the block may emit (R50, R89). -/
theorem packet_packetOk {s : State} (h : s.BlockOk) (hpos : 0 < s.received) : s.PacketOk (packet s) := by
  rw [State.PacketOk, packet_length h]
  exact ⟨hpos, h.1⟩

/-- Settles O17: the length and cells of `packet` in a good state, and `effect_out` for who reads it. -/
theorem packetReadsTheReceivedCells : Obligations.PacketReadsTheReceivedCells := by
  intro s h
  refine ⟨packet_length h, packet_getElem? s, packet_packetOk h, fun i => ⟨_, exec_eq i s, ?_, ?_⟩⟩
  · intro hread
    rw [effect_out, if_pos hread]
  · intro hother
    rw [effect_out, if_neg hother]

/-! ## `clear` -/

/-- `Clear()` leaves the reset state, from every state (R33). -/
theorem clear_atReset (s : State) : (clear s).AtReset := rfl

/-- Doing `Clear()` again changes nothing (R33). -/
theorem clear_clear (s : State) : clear (clear s) = clear s := rfl

/-- The reset event leaves the reset state, from every state (R120). -/
theorem resetEvent_atReset (s : State) : (resetEvent s).AtReset := rfl

/-- Settles O20: `clear`, END, the reset event and `State.resetOf` all leave the one reset block. -/
theorem clearLeavesTheResetState : Obligations.ClearLeavesTheResetState := by
  intro s
  have hclear : (clear s).AtReset := clear_atReset s
  have hend : (effect .endPkt s).block = (clear s).block := (effect_endPkt_atReset s).trans hclear.symm
  have hreset : (resetEvent s).block = (clear s).block := (resetEvent_atReset s).trans hclear.symm
  have hinit : (State.resetOf s.config).block = (clear s).block := (State.resetOf_atReset s.config).trans hclear.symm
  exact ⟨rfl, hclear, clear_clear s, ⟨_, exec_eq .endPkt s, hend, _, onEvent_eq .reset s, hreset⟩, hinit⟩

end Sys2Proof.Machine
end

section
/-! Proofs of the statements about the encoding (spec/30_encoding.md): the payload of each class (R37) and the complete
transition table (R45). -/

namespace Sys2Proof.Machine

/-! ## What is appended -/

/-- `append` meets R27's wording of it. -/
theorem appendedBetween_append (v : Byte) (s : State) : AppendedBetween v s (append v s) := by
  refine ⟨fun hlt => ?_, fun hfull => ?_⟩
  · rw [append_of_lt v hlt]
    exact ⟨rfl, rfl⟩
  · rw [append_of_not_lt v (Nat.not_lt.2 hfull.ge)]
    exact ⟨rfl, rfl⟩

/-- An operation with a payload appends exactly it, or drops it at `MAXLEN` (R37). -/
theorem appendedBetween_effect {i : Instr} {v : Byte} (hi : payload i = some v) (s : State) :
    AppendedBetween v s (effect i s) := by
  obtain ⟨hacc, hrec, -⟩ := effect_of_payload hi s
  rw [AppendedBetween, hacc, hrec]
  exact appendedBetween_append v s

/-- Settles O9: the table by `rfl`, and for what is appended `appendedBetween_effect` and END's reset state. -/
theorem payloadIsWhatIsAppended : Obligations.PayloadIsWhatIsAppended := by
  refine ⟨fun _ => ⟨rfl, rfl⟩, rfl, rfl, rfl, rfl, fun i v s hi => ⟨_, exec_eq i s, appendedBetween_effect hi s⟩,
    fun s => ⟨_, exec_eq .esc s, rfl, rfl⟩, fun s => ⟨_, exec_eq .endPkt s, ?_⟩⟩
  obtain ⟨-, hrec, hacc⟩ := (State.atReset_iff _).1 (effect_endPkt_atReset s)
  exact ⟨hacc, hrec⟩

/-! ## The rows of the transition table -/

/-- An operation with a payload leaves `Normal`: the introducer has none. -/
theorem nextMode_of_payload {i : Instr} {v : Byte} (hi : payload i = some v) : i.nextMode = .normal := by
  cases i
  case esc => cases hi
  all_goals rfl

/-- The appending rows of R45: a byte whose class has a payload appends it, leaves `Normal` and emits nothing. -/
theorem feed_of_payload {b v : Byte} {s : State} (h : payload (classify s.mode b) = some v) :
    ∃ t, feed b s = .next t ∧ t.mode = .normal ∧ AppendedBetween v s t ∧ t.out = none := by
  obtain ⟨-, -, hout⟩ := effect_of_payload h s
  exact ⟨_, feed_eq b s, (effect_classify_mode b s).trans (nextMode_of_payload h), appendedBetween_effect h s, hout⟩

/-- The END row of R45: in a good state the whole accumulator is emitted unless it is empty, and the block is reset. -/
theorem feed_end_of_normal {s : State} (hok : s.BlockOk) (hm : s.mode = .normal) :
    ∃ t, feed Marker.END s = .next t ∧ t.AtReset ∧ t.out = if 0 < s.received then some s.acc else none := by
  have hclass : classify s.mode Marker.END = .endPkt := (classify_eq_endPkt_iff _ _).2 ⟨hm, rfl⟩
  refine ⟨effect .endPkt s, by rw [feed_eq, hclass], effect_endPkt_atReset s, ?_⟩
  simp [effect_out, packet_eq hok]

/-- The ESC row of R45: only the mode changes in the block, and nothing is emitted. -/
theorem feed_esc_of_normal {s : State} (hm : s.mode = .normal) :
    ∃ t, feed Marker.ESC s = .next t ∧ t.block = (.escapePending, s.received, s.acc) ∧ t.out = none := by
  have hclass : classify s.mode Marker.ESC = .esc := (classify_eq_esc_iff _ _).2 ⟨hm, rfl⟩
  exact ⟨effect .esc s, by rw [feed_eq, hclass], rfl, rfl⟩

/-- From `Normal`, the byte `0xDB` is the event that leads to `EscapePending`, and no other event does (R45). -/
theorem eventEffect_mode_escapePending_iff {s : State} (hm : s.mode = .normal) (e : Event) :
    (eventEffect e s).mode = .escapePending ↔ e = .byte Marker.ESC := by
  cases e with
  | byte b => rw [eventEffect, effect_classify_mode, nextMode_escapePending_iff, classify_eq_esc_iff]; simp [hm]
  | reset => simp [eventEffect]
  | nothing => simp [eventEffect, hm]

/-- Settles O23: END, ESC and the appending rows by the lemma of each, and the only way in by
`eventEffect_mode_escapePending_iff`. -/
theorem transitionTable : Obligations.TransitionTable := by
  intro s hok
  refine ⟨fun hm => ⟨feed_end_of_normal hok hm, feed_esc_of_normal hm, fun b hend hesc => ?data⟩,
    fun hm => ⟨?escEnd, ?escEsc, fun b hend hesc => ?pass⟩,
    ⟨_, onEvent_eq .reset s, resetEvent_atReset s, rfl⟩, fun e t ht hm hmode => ?onlyWayIn⟩
  case data => exact feed_of_payload (by rw [hm, classify_normal_of_ne hend hesc]; rfl)
  case escEnd => exact feed_of_payload (by rw [hm]; rfl)
  case escEsc => exact feed_of_payload (by rw [hm]; rfl)
  case pass => exact feed_of_payload (by rw [hm, classify_escapePending_of_ne hend hesc]; rfl)
  case onlyWayIn =>
    obtain rfl : eventEffect e s = t := Host.Outcome.next.inj ((onEvent_eq e s).symm.trans ht)
    exact (eventEffect_mode_escapePending_iff hm e).1 hmode

end Sys2Proof.Machine
end

section
/-! Proofs of the statements about the operations of `Normal` mode (spec/40_normal_mode.md): END (R50), ESC (R51) and
DATA (R52). -/

namespace Sys2Proof.Machine

/-! ## The anomalies, class by class -/

/-- A byte that is END is a duplicate exactly when nothing is accumulated (R101, `DUP_END`). -/
theorem anomalies_of_endPkt {s : State} {b : Byte} (h : classify s.mode b = .endPkt) :
    anomalies s b = if s.received = 0 then [.dupEnd] else [] := by
  rw [anomalies_eq, h]

/-- An introducer has no anomaly (R51). -/
theorem anomalies_of_esc {s : State} {b : Byte} (h : classify s.mode b = .esc) : anomalies s b = [] := by
  rw [anomalies_eq, h]

/-- Plain data is an anomaly exactly when it is dropped at `MAXLEN` (R101, `OVERSIZE`). -/
theorem anomalies_of_data {s : State} {b c : Byte} (h : classify s.mode b = .data c) :
    anomalies s b = if s.received = s.config.maxLen then [.oversize] else [] := by
  rw [anomalies_eq, h]

/-! ## END -/

/-- END with a non-empty accumulator: `Packet()` is emitted, then the block is cleared. -/
theorem effect_endPkt_of_pos {s : State} (h : 0 < s.received) :
    effect .endPkt s = { s with
      received := 0, acc := [], mode := .normal, out := some (packet s), sink := s.sink ++ [packet s] } := by
  rw [effect, if_pos h]; rfl

/-- END with an empty accumulator: nothing is emitted, and the block is cleared. -/
theorem effect_endPkt_of_not_pos {s : State} (h : ¬ 0 < s.received) :
    effect .endPkt s = { s with received := 0, acc := [], mode := .normal, out := none } := by
  rw [effect, if_neg h]; rfl

/-- A good state in `Normal` mode with nothing accumulated is the reset state (R50, the absorbed END). -/
theorem atReset_of_received_eq_zero {s : State} (hok : s.BlockOk) (hm : s.mode = .normal) (h0 : s.received = 0) :
    s.AtReset :=
  s.atReset_iff.2 ⟨hm, h0, List.length_eq_zero_iff.1 (hok.2.trans h0)⟩

/-- Settles O10: the two cases of END's effect, and in a good state what `packet_eq` and `packet_length` say of the
packet. -/
theorem endEmitsTheAccumulatorAndClears : Obligations.EndEmitsTheAccumulatorAndClears := by
  intro s
  refine ⟨?nextState, packet_eq, fun hok hpos => ⟨packet_length hok, hok.1⟩, fun hm => ?anomaly,
    atReset_of_received_eq_zero, fun hm => ?pass⟩
  case nextState =>
    rw [exec_eq]
    by_cases hpos : 0 < s.received
    · simp only [effect_endPkt_of_pos hpos, if_pos hpos, packet]
    · simp only [effect_endPkt_of_not_pos hpos, if_neg hpos]
  case anomaly =>
    have hclass : classify s.mode 0xC0 = .endPkt := (classify_eq_endPkt_iff _ _).2 ⟨hm, rfl⟩
    exact ⟨hclass, anomalies_of_endPkt hclass⟩
  case pass => exact (classify_eq_pass_iff _ _ _).2 ⟨hm, by decide, by decide, rfl⟩

/-! ## ESC -/

/-- Settles O11: `effect_esc` is the next state whole, and `0xDB` is ESC in `Normal` and PASS in `EscapePending`. -/
theorem escEntersEscapePendingOnly : Obligations.EscEntersEscapePendingOnly := by
  intro s
  refine ⟨by rw [exec_eq, effect_esc], fun hm => ?anomaly, fun hm => ?pass⟩
  case anomaly =>
    have hclass : classify s.mode 0xDB = .esc := (classify_eq_esc_iff _ _).2 ⟨hm, rfl⟩
    exact ⟨hclass, anomalies_of_esc hclass⟩
  case pass => exact (classify_eq_pass_iff _ _ _).2 ⟨hm, by decide, by decide, rfl⟩

/-! ## DATA -/

/-- DATA is `append` with no packet: the byte is stored and counted below `MAXLEN`, and dropped at it (R52). -/
theorem effect_data (b : Byte) (s : State) :
    effect (.data b) s = if s.received < s.config.maxLen
      then { s with acc := s.acc ++ [b], received := s.received + 1, out := none }
      else { s with out := none } := by
  rw [effect]
  rcases append_cases b s with ⟨hlt, happ⟩ | ⟨hge, happ⟩
  · rw [happ, if_pos hlt]; rfl
  · rw [happ, if_neg hge]; rfl

/-- Settles O12: `effect_data` is the next state whole, and every byte but the two markers of `Normal` mode is DATA. -/
theorem dataAppendsItsByteOrDropsIt : Obligations.DataAppendsItsByteOrDropsIt := by
  intro b s
  refine ⟨by rw [exec_eq, effect_data], fun hm hend hesc => ?_⟩
  have hclass : classify s.mode b = .data b := by rw [hm, classify_normal_of_ne hend hesc]
  exact ⟨hclass, anomalies_of_data hclass⟩

end Sys2Proof.Machine
end

section
/-! Proofs of the statements about the operations of `EscapePending` mode (spec/41_escape_pending_mode.md): ESC_END (R60),
ESC_ESC (R61) and PASS (R62). -/

namespace Sys2Proof.Machine

/-! ## The common shape of the three resolvers -/

/-- `resolve` is `append`, back to `Normal`, with no packet: the mode returns also when the byte is dropped at `MAXLEN`. -/
theorem resolve_eq (v : Byte) (s : State) :
    resolve v s = if s.received < s.config.maxLen
      then { s with acc := s.acc ++ [v], received := s.received + 1, mode := .normal, out := none }
      else { s with mode := .normal, out := none } := by
  rw [resolve]
  rcases append_cases v s with ⟨hlt, happ⟩ | ⟨hge, happ⟩
  · rw [happ, if_pos hlt]; rfl
  · rw [happ, if_neg hge]; rfl

/-! ## The resolver bytes and their anomalies -/

/-- In `EscapePending` the byte `0xDC` is ESC_END (R38). -/
theorem classify_escEnd_of_escapePending {s : State} (hm : s.mode = .escapePending) :
    classify s.mode Marker.ESC_END = .escEnd := by
  rw [hm]; rfl

/-- In `EscapePending` the byte `0xDD` is ESC_ESC (R38). -/
theorem classify_escEsc_of_escapePending {s : State} (hm : s.mode = .escapePending) :
    classify s.mode Marker.ESC_ESC = .escEsc := by
  rw [hm]; rfl

/-- ESC_END is an anomaly exactly when its byte is dropped at `MAXLEN` (R101, `OVERSIZE`). -/
theorem anomalies_of_escEnd {s : State} {b : Byte} (h : classify s.mode b = .escEnd) :
    anomalies s b = if s.received = s.config.maxLen then [.oversize] else [] := by
  rw [anomalies_eq, h]

/-- ESC_ESC is an anomaly exactly when its byte is dropped at `MAXLEN` (R101, `OVERSIZE`). -/
theorem anomalies_of_escEsc {s : State} {b : Byte} (h : classify s.mode b = .escEsc) :
    anomalies s b = if s.received = s.config.maxLen then [.oversize] else [] := by
  rw [anomalies_eq, h]

/-- PASS is always an anomaly, and a second one when its byte is dropped at `MAXLEN` (R101, `BAD_ESC` and `OVERSIZE`). -/
theorem anomalies_of_pass {s : State} {b c : Byte} (h : classify s.mode b = .pass c) :
    anomalies s b = if s.received = s.config.maxLen then [.badEsc, .oversize] else [.badEsc] := by
  rw [anomalies_eq, h]

/-! ## ESC_END and ESC_ESC -/

/-- Settles O13: ESC_END resolves to `0xC0`, and `resolve_eq` is its next state whole. -/
theorem escEndAppendsEndLiteral : Obligations.EscEndAppendsEndLiteral := by
  intro s
  refine ⟨by rw [exec_eq, effect, resolve_eq, Marker.END], fun hm => ?_⟩
  have hclass : classify s.mode 0xDC = .escEnd := classify_escEnd_of_escapePending hm
  exact ⟨hclass, anomalies_of_escEnd hclass⟩

/-- Settles O14: ESC_ESC resolves to `0xDB`, and `resolve_eq` is its next state whole. -/
theorem escEscAppendsEscLiteral : Obligations.EscEscAppendsEscLiteral := by
  intro s
  refine ⟨by rw [exec_eq, effect, resolve_eq, Marker.ESC], fun hm => ?_⟩
  have hclass : classify s.mode 0xDD = .escEsc := classify_escEsc_of_escapePending hm
  exact ⟨hclass, anomalies_of_escEsc hclass⟩

/-! ## PASS -/

/-- After an introducer END passed through resolves to the byte that ESC_END appends (R62). -/
theorem feed_end_eq_feed_escEnd {s : State} (hm : s.mode = .escapePending) :
    feed Marker.END s = feed Marker.ESC_END s := by
  have hpass : classify s.mode Marker.END = .pass Marker.END :=
    (classify_eq_pass_iff _ _ _).2 ⟨hm, by decide, by decide, rfl⟩
  rw [feed_eq, feed_eq, hpass, classify_escEnd_of_escapePending hm, effect, effect]

/-- After an introducer ESC passed through resolves to the byte that ESC_ESC appends (R62). -/
theorem feed_esc_eq_feed_escEsc {s : State} (hm : s.mode = .escapePending) :
    feed Marker.ESC s = feed Marker.ESC_ESC s := by
  have hpass : classify s.mode Marker.ESC = .pass Marker.ESC :=
    (classify_eq_pass_iff _ _ _).2 ⟨hm, by decide, by decide, rfl⟩
  rw [feed_eq, feed_eq, hpass, classify_escEsc_of_escapePending hm, effect, effect]

/-- Settles O15: PASS resolves to its own byte, every byte but the two resolvers is PASS, and the markers of `Normal` mode
act like their escaped forms. -/
theorem passAppendsTheByteUnescaped : Obligations.PassAppendsTheByteUnescaped := by
  intro b s
  refine ⟨by rw [exec_eq, effect, resolve_eq], fun hm hescEnd hescEsc => ?_,
    fun hm => ⟨feed_end_eq_feed_escEnd hm, feed_esc_eq_feed_escEsc hm⟩⟩
  have hclass : classify s.mode b = .pass b := by rw [hm, classify_escapePending_of_ne hescEnd hescEsc]
  exact ⟨hclass, anomalies_of_pass hclass⟩

end Sys2Proof.Machine
end

section
/-! Proofs of the statements about whole streams (spec/42_stream_laws.md): streams without `0xC0` (R72), duplicate ENDs
(R74), the reset after an END (R75) and truncation (R76). -/

namespace Sys2Proof.Machine

/-! ## Putting runs together (R70) -/

/-- A run of bytes goes on where the first byte's step left the block. -/
theorem run_cons {s t u : State} {b : Byte} {bs : List Byte} {ps : List Packet} (hb : feed b s = .next t)
    (hbs : run t bs = .next (u, ps)) : run s (b :: bs) = .next (u, t.out.toList ++ ps) := by
  obtain rfl : effect (classify s.mode b) s = t := Host.Outcome.next.inj ((feed_eq b s).symm.trans hb)
  rw [run_eq] at hbs ⊢
  obtain ⟨rfl, rfl⟩ := Prod.mk.inj (Host.Outcome.next.inj hbs)
  rfl

/-- A run of one byte is its step. -/
theorem run_singleton {s t : State} {b : Byte} (hb : feed b s = .next t) : run s [b] = .next (t, t.out.toList) := by
  rw [run_cons hb rfl, List.append_nil]

/-- Two runs one after the other are the run of the concatenation. -/
theorem run_append {s t u : State} {xs ys : List Byte} {ps qs : List Packet} (hxs : run s xs = .next (t, ps))
    (hys : run t ys = .next (u, qs)) : run s (xs ++ ys) = .next (u, ps ++ qs) := by
  rw [run_eq] at hxs hys
  obtain ⟨rfl, rfl⟩ := Prod.mk.inj (Host.Outcome.next.inj hxs)
  obtain ⟨rfl, rfl⟩ := Prod.mk.inj (Host.Outcome.next.inj hys)
  rw [run_eq, List.map_append, runState_append, runPackets_append]

theorem run_config {s t : State} {bs : List Byte} {ps : List Packet} (h : run s bs = .next (t, ps)) :
    t.config = s.config := by
  rw [run_eq] at h
  obtain ⟨rfl, -⟩ := Prod.mk.inj (Host.Outcome.next.inj h)
  exact runState_config _ _

/-- What a run decodes depends on the block and `MAXLEN` alone. -/
theorem run_of_block_eq {s t u : State} {bs : List Byte} {ps : List Packet} (hb : s.block = t.block)
    (hc : s.config = t.config) (h : run t bs = .next (u, ps)) : ∃ v, run s bs = .next (v, ps) ∧ v.block = u.block := by
  rw [run_eq] at h
  obtain ⟨rfl, rfl⟩ := Prod.mk.inj (Host.Outcome.next.inj h)
  obtain ⟨hblock, hpackets⟩ := run_block_congr (bs.map .byte) hb hc
  exact ⟨_, by rw [run_eq, hpackets], hblock⟩

/-- R77 with the other two pieces of the block: what a run over a stretch without END leaves. -/
theorem run_of_endFree {s : State} {bs : List Byte} (hok : s.BlockOk) (he : endFree s.mode bs = true) :
    ∃ t, run s bs = .next (t, []) ∧ t.BlockOk ∧ t.mode = modeAfter s.mode bs ∧
      t.acc = (s.acc ++ decodedSequence s.mode bs).take s.config.maxLen := by
  obtain ⟨hacc, hpackets⟩ := runState_acc_of_endFree bs hok he
  exact ⟨_, by rw [run_eq, hpackets], runState_blockOk _ hok, runState_mode s bs, hacc⟩

/-! ## Streams without `0xC0` (R72) -/

/-- The last byte alone decides whether an escape is pending: it is when that byte was an introducer (R11). -/
theorem modeAfter_concat_escapePending_iff (m : Mode) (bs : List Byte) (b : Byte) :
    modeAfter m (bs ++ [b]) = .escapePending ↔ modeAfter m bs = .normal ∧ b = Marker.ESC := by
  rw [modeAfter_append, modeAfter_cons, modeAfter_nil, nextMode_escapePending_iff, classify_eq_esc_iff]

theorem modeAfter_escapePending_iff {m : Mode} {bs : List Byte} (hne : bs ≠ []) :
    modeAfter m bs = .escapePending ↔ ∃ before, bs = before ++ [Marker.ESC] ∧ modeAfter m before = .normal := by
  obtain ⟨init, b, rfl⟩ := List.eq_nil_or_concat' bs |>.resolve_left hne
  rw [modeAfter_concat_escapePending_iff]
  constructor
  · rintro ⟨hm, rfl⟩
    exact ⟨init, rfl, hm⟩
  · rintro ⟨before, heq, hm⟩
    obtain ⟨rfl, rfl⟩ := List.append_singleton_inj.1 heq
    exact ⟨hm, rfl⟩

/-- Settles O39: each byte that is not an introducer is one byte of the decoded sequence, of which `MAXLEN` are kept, and
the mode is the walk's. -/
theorem streamWithoutEndCountsItsBytes : Obligations.StreamWithoutEndCountsItsBytes := by
  intro s bs hok hno
  have he : endFree s.mode bs = true := endFree_of_no_end s.mode hno
  have hcount := decodedSequence_length s.mode bs he
  obtain ⟨t, hrun, htok, hmode, hacc⟩ := run_of_endFree hok he
  refine ⟨t, hrun, by omega, ?received, fun hnil => by rw [hmode, hnil, modeAfter_nil],
    fun hne => by rw [hmode]; exact modeAfter_escapePending_iff hne⟩
  case received =>
    rw [← htok.2, hacc, List.length_take, List.length_append, hok.2]
    omega

/-! ## Duplicate ENDs (R74) -/

/-- The reset state is a good state. -/
theorem State.AtReset.blockOk {s : State} (h : s.AtReset) : s.BlockOk := by
  obtain ⟨-, hrec, hacc⟩ := s.atReset_iff.1 h
  rw [State.BlockOk, hrec, hacc]
  exact ⟨Nat.zero_le _, rfl⟩

/-- One END in the reset state is absorbed. -/
theorem feed_end_of_atReset {s : State} (h : s.AtReset) :
    ∃ t, feed Marker.END s = .next t ∧ t.AtReset ∧ t.out = none := by
  obtain ⟨hm, hrec, -⟩ := s.atReset_iff.1 h
  simpa [hrec] using feed_end_of_normal h.blockOk hm

/-- Any number of ENDs in the reset state is absorbed. -/
theorem run_ends_of_atReset {s : State} (h : s.AtReset) (n : Nat) :
    ∃ t, run s (List.replicate n Marker.END) = .next (t, []) ∧ t.AtReset := by
  induction n generalizing s with
  | zero => exact ⟨s, rfl, h⟩
  | succ n ih =>
    obtain ⟨t, hfeed, ht, hout⟩ := feed_end_of_atReset h
    obtain ⟨u, hrun, hu⟩ := ih ht
    exact ⟨u, by rw [List.replicate_succ, run_cons hfeed hrun, hout]; rfl, hu⟩

/-- The END that emits a packet leaves the reset state, so every END immediately after it is absorbed. -/
theorem run_end_ends_of_normal {s : State} (hok : s.BlockOk) (hm : s.mode = .normal) (hpos : 0 < s.received) (n : Nat) :
    ∃ t, run s (Marker.END :: List.replicate n Marker.END) = .next (t, [s.acc]) ∧ t.AtReset := by
  obtain ⟨t, hfeed, ht, hout⟩ := feed_end_of_normal hok hm
  obtain ⟨u, hrun, hu⟩ := run_ends_of_atReset ht n
  rw [if_pos hpos] at hout
  exact ⟨u, by rw [run_cons hfeed hrun, hout]; rfl, hu⟩

/-- ENDs put in where a run has reached the reset state change nothing: what follows sees the same block. -/
theorem run_append_ends_append {s t u : State} {xs ys : List Byte} {ps qs : List Packet}
    (hxs : run s xs = .next (t, ps)) (ht : t.AtReset) (hys : run t ys = .next (u, qs)) (n : Nat) :
    ∃ v, run s (xs ++ List.replicate n Marker.END ++ ys) = .next (v, ps ++ qs) ∧ v.block = u.block := by
  obtain ⟨t', hends, ht'⟩ := run_ends_of_atReset ht n
  obtain ⟨v, hys', hblock⟩ := run_of_block_eq (ht'.trans ht.symm) (run_config hends) hys
  exact ⟨v, by rw [run_append (run_append hxs hends) hys', List.append_nil], hblock⟩

/-- Settles O40: extra ENDs from the reset state, after the END that emitted a packet, and between two runs. -/
theorem duplicateEndsAreAbsorbed : Obligations.DuplicateEndsAreAbsorbed :=
  ⟨fun _ n h => run_ends_of_atReset h n, fun _ n hok hm hpos => run_end_ends_of_normal hok hm hpos n,
    fun _ _ _ _ _ _ _ n hxs ht hys => run_append_ends_append hxs ht hys n⟩

/-! ## The reset after every END (R75) -/

/-- A step whose class is END leaves the reset state. -/
theorem feed_atReset_of_endPkt {b : Byte} {s : State} (h : classify s.mode b = .endPkt) :
    ∃ t, feed b s = .next t ∧ t.AtReset :=
  ⟨_, by rw [feed_eq, h], effect_endPkt_atReset s⟩

/-- A run whose last byte is classified END leaves the reset state. -/
theorem run_atReset_of_getLast? {s : State} {bs : List Byte} (h : (classes s.mode bs).getLast? = some .endPkt) :
    ∃ t ps, run s bs = .next (t, ps) ∧ t.AtReset := by
  rcases List.eq_nil_or_concat' bs with rfl | ⟨init, b, rfl⟩
  · cases h
  · have hinit := run_eq s init
    rw [classes_append, classes_cons, classes_nil, List.getLast?_concat, Option.some.injEq, ← runState_mode] at h
    obtain ⟨t, hfeed, ht⟩ := feed_atReset_of_endPkt h
    exact ⟨t, _, run_append hinit (run_singleton hfeed), ht⟩

/-- A run from the reset state back to it can be done again, and gives its packets again. -/
theorem run_twice_of_atReset {s t : State} {bs : List Byte} {ps : List Packet} (hs : s.AtReset)
    (h : run s bs = .next (t, ps)) (ht : t.AtReset) : ∃ u, run s (bs ++ bs) = .next (u, ps ++ ps) ∧ u.AtReset := by
  obtain ⟨u, hagain, hblock⟩ := run_of_block_eq (ht.trans hs.symm) (run_config h) h
  exact ⟨u, run_append h hagain, hblock.trans ht⟩

/-- `ESC END` from reset ends nothing: the resolver `0xC0` is passed through as data (R62, R75). -/
theorem run_esc_end_of_resetOf (c : Config) :
    ∃ t, run (State.resetOf c) [Marker.ESC, Marker.END] = .next (t, []) ∧ t.block = (.normal, 1, [Marker.END]) := by
  obtain ⟨t, hrun, htok, hmode, hacc⟩ :=
    run_of_endFree (State.resetOf_atReset c).blockOk (show endFree .normal [Marker.ESC, Marker.END] = true from rfl)
  have hacc : t.acc = [Marker.END] := hacc.trans (List.take_of_length_le c.maxLen_pos)
  exact ⟨t, hrun, by rw [State.block, hmode, ← htok.2, hacc]; rfl⟩

/-- Settles O41: END's reset for the step and for the last byte of a run, the run done again from there, and the
counter-example `ESC END`. -/
theorem resetAfterEveryEnd : Obligations.ResetAfterEveryEnd := by
  refine ⟨fun b s => feed_atReset_of_endPkt, fun s bs hs hlast => ?twice, run_esc_end_of_resetOf⟩
  case twice =>
    obtain ⟨hm, -, -⟩ := s.atReset_iff.1 hs
    obtain ⟨t, ps, hrun, ht⟩ := run_atReset_of_getLast? (by rw [hm]; exact hlast)
    obtain ⟨u, hagain, hu⟩ := run_twice_of_atReset hs hrun ht
    exact ⟨t, ps, u, hrun, ht, hagain, hu⟩

/-! ## Truncation (R76) -/

/-- Plain bytes in `Normal` mode are DATA each, and the mode stays. -/
theorem classes_of_plain {vs : List Byte} (h : ∀ v ∈ vs, v ≠ Marker.END ∧ v ≠ Marker.ESC) :
    classes .normal vs = vs.map .data ∧ modeAfter .normal vs = .normal := by
  induction vs with
  | nil => exact ⟨rfl, rfl⟩
  | cons v vs ih =>
    obtain ⟨⟨hend, hesc⟩, hvs⟩ := List.forall_mem_cons.1 h
    obtain ⟨hclasses, hmode⟩ := ih hvs
    rw [classes_cons, modeAfter_cons, classify_normal_of_ne hend hesc, List.map_cons]
    exact ⟨congrArg _ hclasses, hmode⟩

/-- Plain bytes decode to themselves. -/
theorem decodedSequence_of_plain {vs : List Byte} (h : ∀ v ∈ vs, v ≠ Marker.END ∧ v ≠ Marker.ESC) :
    decodedSequence .normal vs = vs := by
  rw [decodedSequence, (classes_of_plain h).1, List.filterMap_map]
  exact List.filterMap_some

/-- Plain bytes from the reset state leave the first `MAXLEN` of them in the accumulator. -/
theorem run_plain_of_atReset {s : State} {vs : List Byte} (hs : s.AtReset)
    (h : ∀ v ∈ vs, v ≠ Marker.END ∧ v ≠ Marker.ESC) :
    ∃ t, run s vs = .next (t, []) ∧ t.BlockOk ∧ t.mode = .normal ∧ t.acc = vs.take s.config.maxLen := by
  obtain ⟨hm, -, hnil⟩ := s.atReset_iff.1 hs
  have he : endFree s.mode vs = true := endFree_of_no_end _ fun hmem => (h _ hmem).1 rfl
  obtain ⟨t, hrun, htok, hmode, hacc⟩ := run_of_endFree hs.blockOk he
  refine ⟨t, hrun, htok, ?_, ?_⟩
  · rw [hmode, hm, (classes_of_plain h).2]
  · rw [hacc, hnil, List.nil_append, hm, decodedSequence_of_plain h]

/-- The END after plain bytes emits the first `MAXLEN` of them, or nothing when there are none. -/
theorem run_plain_end_of_atReset {s : State} {vs : List Byte} (hs : s.AtReset)
    (h : ∀ v ∈ vs, v ≠ Marker.END ∧ v ≠ Marker.ESC) :
    ∃ t, run s (vs ++ [Marker.END]) = .next (t, if vs = [] then [] else [vs.take s.config.maxLen]) ∧ t.AtReset := by
  obtain ⟨t, hrun, htok, hmode, hacc⟩ := run_plain_of_atReset hs h
  obtain ⟨u, hfeed, hu, hout⟩ := feed_end_of_normal htok hmode
  have hpos : 0 < t.received ↔ vs ≠ [] := by
    have hmax := s.config.maxLen_pos
    rw [← htok.2, hacc, List.length_take, ← List.length_pos_iff]
    omega
  refine ⟨u, ?_, hu⟩
  rw [run_append hrun (run_singleton hfeed), hout, hacc]
  by_cases hnil : vs = []
  · rw [if_neg (mt hpos.1 (not_not_intro hnil)), if_pos hnil]; rfl
  · rw [if_pos (hpos.2 hnil), if_neg hnil]; rfl

/-- Settles O42: `run_plain_end_of_atReset`, and a list longer than `MAXLEN` has a first `MAXLEN`. -/
theorem truncationKeepsTheFirstBytes : Obligations.TruncationKeepsTheFirstBytes := by
  intro s vs hs hplain
  obtain ⟨t, hrun, ht⟩ := run_plain_end_of_atReset hs hplain
  exact ⟨t, hrun, ht, fun hlen => List.length_take_of_le (by omega)⟩

end Sys2Proof.Machine
end

section
/-! Proof of the statement that nothing stops the block (spec/60_exceptions.md R100). -/

namespace Sys2Proof.Machine

/-- The host's run of the machine never stops early: each of its `n` steps answers a next state. -/
theorem core_run_next (n : Nat) (s : State) : ∃ t, Host.Core.run Sys2Proof.core n s = .next t := by
  induction n generalizing s with
  | zero => exact ⟨s, core_run_zero s⟩
  | succ n ih =>
    rw [core_run_succ]
    exact ih _

/-- Settles O26: no fault can be built, `exec_eq`, `step_eq` and `run_eq` name each outcome's next state, and any number
of steps is `core_run_next`. -/
theorem nothingEverStopsTheBlock : Obligations.NothingEverStopsTheBlock := by
  refine ⟨?noFault, fun i s => ⟨_, exec_eq i s⟩, fun s => ⟨_, step_eq s⟩, fun s bs => ⟨_, _, run_eq s bs⟩, core_run_next⟩
  case noFault => exact nofun

end Sys2Proof.Machine
end

section
/-! Proofs of the statements about decoding and encoding (spec/00_scope.md R5, spec/30_encoding.md): whole streams, the
opcode map (R40), one operation per byte (R36, R38, R41) and the decoder written from the table (R46). -/

namespace Sys2Proof.Machine

/-! ## Whole streams -/

/-- A well-formed operation's byte, classified in the operation's mode, is the operation. -/
theorem classify_mode_encode {i : Instr} (h : i.wf = true) : classify i.mode (encode i) = i := by
  cases i with
  | endPkt => rfl
  | esc => rfl
  | data b => exact Laws.EncodedByteReadsBack.data b h
  | escEnd => rfl
  | escEsc => rfl
  | pass b => exact Laws.EncodedByteReadsBack.pass b h

@[simp] theorem chained_nil (m : Mode) : Instr.chained m [] = true := rfl

@[simp] theorem chained_cons_iff (m : Mode) (i : Instr) (ops : List Instr) :
    Instr.chained m (i :: ops) = true ↔ i.wf = true ∧ i.mode = m ∧ Instr.chained i.nextMode ops = true := by
  simp [Instr.chained, and_assoc]

@[simp] theorem encodeAll_nil : encodeAll [] = [] := rfl

@[simp] theorem encodeAll_cons (i : Instr) (ops : List Instr) : encodeAll (i :: ops) = encode i :: encodeAll ops := rfl

/-- A chained sequence is read back from its bytes: each byte is classified in the mode its operation exists in. -/
theorem classes_encodeAll {m : Mode} {ops : List Instr} (h : Instr.chained m ops = true) :
    classes m (encodeAll ops) = ops := by
  induction ops generalizing m with
  | nil => rfl
  | cons i ops ih =>
    obtain ⟨hwf, rfl, hops⟩ := (chained_cons_iff m i ops).1 h
    rw [encodeAll_cons, classes_cons, classify_mode_encode hwf, ih hops]

/-- What a stream is read as is chained: each class exists in the mode the one before it left. -/
theorem chained_classes (m : Mode) (bs : List Byte) : Instr.chained m (classes m bs) = true := by
  induction bs generalizing m with
  | nil => rfl
  | cons b bs ih => exact (chained_cons_iff _ _ _).2 ⟨classify_wf m b, classify_mode m b, ih _⟩

/-- What a stream is read as has the stream's bytes. -/
theorem encodeAll_classes (m : Mode) (bs : List Byte) : encodeAll (classes m bs) = bs := by
  induction bs generalizing m with
  | nil => rfl
  | cons b bs ih => rw [classes_cons, encodeAll_cons, encode_classify, ih]

/-- Settles O8: both directions by induction along the stream, one byte at a time, with the mode carried along. -/
theorem operationStreamsRoundTrip : Obligations.OperationStreamsRoundTrip :=
  ⟨fun _ _ => classes_encodeAll, fun m bs => ⟨chained_classes m bs, encodeAll_classes m bs⟩⟩

/-! ## Fixed values (R5, R38) -/

/-- Settles O1: the constants are closed terms, and each spelling is a numeral of the same value. -/
theorem markerConstantsAgreeInEverySpelling : Obligations.MarkerConstantsAgreeInEverySpelling :=
  ⟨⟨rfl, rfl, rfl, rfl⟩, ⟨rfl, rfl, rfl, rfl⟩, ⟨rfl, rfl, rfl, rfl⟩, rfl, rfl, rfl, rfl⟩

/-- Settles O4: each word is a closed term, which the decoder computes. -/
theorem writtenOutWordsDecode : Obligations.WrittenOutWordsDecode :=
  ⟨rfl, rfl, rfl, rfl, rfl, rfl, rfl, rfl⟩

/-! ## The opcode map (R40) -/

/-- A byte that is none of the four markers is DATA in `Normal` mode and PASS in `EscapePending` mode. -/
theorem classify_of_not_marker {b : Byte} (h : b ∉ [Marker.END, Marker.ESC, Marker.ESC_END, Marker.ESC_ESC]) :
    classify .normal b = .data b ∧ classify .escapePending b = .pass b := by
  simp only [List.mem_cons, List.not_mem_nil, or_false, not_or] at h
  obtain ⟨hend, hesc, hescEnd, hescEsc⟩ := h
  exact ⟨classify_normal_of_ne hend hesc, classify_escapePending_of_ne hescEnd hescEsc⟩

/-- The markers are the byte values 192 and 219 to 221; no other value is one. -/
theorem not_marker_of_toNat {b : Byte} (hend : b.toNat ≠ 192) (hesc : b.toNat < 219 ∨ 221 < b.toNat) :
    b ∉ [Marker.END, Marker.ESC, Marker.ESC_END, Marker.ESC_ESC] := by
  simp only [List.mem_cons, List.not_mem_nil, or_false]
  rintro (rfl | rfl | rfl | rfl)
  · exact hend rfl
  all_goals exact absurd hesc (by decide)

/-- Settles O5: the three ranges by `classify_of_not_marker`, the four markers by computation, and the consequences by the
appending rows of the transition table. -/
theorem opcodeMapOfBothModes : Obligations.OpcodeMapOfBothModes := by
  refine ⟨fun b => ⟨fun h => ?low, ?c0, fun h => ?middle, ?db, ?dc, ?dd, fun h => ?high⟩, fun s b hm hb => ?data,
    fun s b hm hb => ?pass⟩
  case low => exact classify_of_not_marker (not_marker_of_toNat (by omega) (by omega))
  case middle => exact classify_of_not_marker (not_marker_of_toNat (by omega) (by omega))
  case high => exact classify_of_not_marker (not_marker_of_toNat (by omega) (by omega))
  case c0 => rintro rfl; exact ⟨rfl, rfl⟩
  case db => rintro rfl; exact ⟨rfl, rfl⟩
  case dc => rintro rfl; exact ⟨rfl, rfl⟩
  case dd => rintro rfl; exact ⟨rfl, rfl⟩
  case data =>
    have hpay : payload (classify s.mode b) = some b := by rw [hm]; rcases hb with rfl | rfl <;> rfl
    obtain ⟨t, hfeed, hmode, happ, -⟩ := feed_of_payload hpay
    exact ⟨t, hfeed, happ, hmode⟩
  case pass =>
    have hpay : payload (classify s.mode b) = some b := by rw [hm]; rcases hb with rfl | rfl <;> rfl
    obtain ⟨t, hfeed, hmode, happ, hout⟩ := feed_of_payload hpay
    exact ⟨t, hfeed, happ, hout, hmode⟩

/-! ## One operation per byte (R36, R38, R41) -/

/-- `classify` answers the only well-formed operation of the mode that the byte encodes. -/
theorem eq_classify_of_encode {i : Instr} {m : Mode} {b : Byte} (hwf : i.wf = true) (hm : i.mode = m)
    (hb : encode i = b) : i = classify m b := by
  rw [← hm, ← hb, classify_mode_encode hwf]

/-- The 256 byte values, in rising order. -/
def byteValues : List Byte := (List.range 256).map (BitVec.ofNat 8)

/-- Every byte value stands in `byteValues` exactly once. -/
theorem count_byteValues (b : Byte) : byteValues.count b = 1 := by
  refine List.count_eq_one_of_mem (List.nodup_range.map_on fun i hi j hj heq => ?_) (List.mem_map.2 ⟨b.toNat, ?_, ?_⟩)
  · rw [List.mem_range] at hi hj
    simpa [Nat.mod_eq_of_lt hi, Nat.mod_eq_of_lt hj] using congrArg BitVec.toNat heq
  · exact List.mem_range.2 b.isLt
  · exact BitVec.eq_of_toNat_eq (Nat.mod_eq_of_lt b.isLt)

/-- The elements of a list that are neither of two given values are all but those two values' occurrences. -/
theorem countP_neither_add_count {x y : Byte} (hxy : x ≠ y) (l : List Byte) :
    l.countP (fun b => b != x && b != y) + l.count x + l.count y = l.length := by
  induction l with
  | nil => rfl
  | cons b l ih =>
    rw [List.countP_cons, List.count_cons, List.count_cons, List.length_cons]
    by_cases hx : b = x
    · simp [hx, hxy]; omega
    by_cases hy : b = y
    · simp [hy, hxy.symm]; omega
    simp [hx, hy]; omega

/-- All byte values but two. -/
theorem countP_neither_byteValues {x y : Byte} (hxy : x ≠ y) :
    byteValues.countP (fun b => b != x && b != y) = 254 := by
  have hall := countP_neither_add_count hxy byteValues
  rw [count_byteValues, count_byteValues, byteValues, List.length_map, List.length_range] at hall
  exact Nat.add_right_cancel (m := 2) hall

/-- The number of byte values whose class in mode `m` has the mnemonic `n`. -/
def classSize (m : Mode) (n : String) : Nat := byteValues.countP (fun b => (classify m b).mnemonic == n)

/-- A class with one byte value has size 1. -/
theorem classSize_eq_one {m : Mode} {n : String} (v : Byte) (h : ∀ b, (classify m b).mnemonic = n ↔ b = v) :
    classSize m n = 1 := by
  rw [← count_byteValues v, classSize, List.count]
  exact List.countP_congr fun b _ => by rw [beq_iff_eq, beq_iff_eq, h]

/-- A class with all byte values but two has size 254. -/
theorem classSize_eq_254 {m : Mode} {n : String} {x y : Byte} (hxy : x ≠ y)
    (h : ∀ b, (classify m b).mnemonic = n ↔ b ≠ x ∧ b ≠ y) : classSize m n = 254 := by
  rw [← countP_neither_byteValues hxy, classSize]
  exact List.countP_congr fun b _ => by rw [beq_iff_eq, h, Bool.and_eq_true, bne_iff_ne, bne_iff_ne]

theorem mnemonic_classify_normal (b : Byte) : (classify .normal b).mnemonic =
    if b = Marker.END then "END" else if b = Marker.ESC then "ESC" else "DATA" := by
  simp only [classify]
  (repeat' split) <;> rfl

theorem mnemonic_classify_escapePending (b : Byte) : (classify .escapePending b).mnemonic =
    if b = Marker.ESC_END then "ESC_END" else if b = Marker.ESC_ESC then "ESC_ESC" else "PASS" := by
  simp only [classify]
  (repeat' split) <;> rfl

/-- In `Normal` mode END and ESC are one byte value each, and DATA is all the others (R38). -/
theorem classSize_normal :
    classSize .normal "END" = 1 ∧ classSize .normal "ESC" = 1 ∧ classSize .normal "DATA" = 254 := by
  have hne : Marker.END ≠ Marker.ESC := by decide
  refine ⟨classSize_eq_one Marker.END fun b => ?_, classSize_eq_one Marker.ESC fun b => ?_,
    classSize_eq_254 hne fun b => ?_⟩ <;>
  · rw [mnemonic_classify_normal]
    split_ifs <;> simp_all

/-- In `EscapePending` mode ESC_END and ESC_ESC are one byte value each, and PASS is all the others (R38). -/
theorem classSize_escapePending : classSize .escapePending "ESC_END" = 1 ∧
    classSize .escapePending "ESC_ESC" = 1 ∧ classSize .escapePending "PASS" = 254 := by
  have hne : Marker.ESC_END ≠ Marker.ESC_ESC := by decide
  refine ⟨classSize_eq_one Marker.ESC_END fun b => ?_, classSize_eq_one Marker.ESC_ESC fun b => ?_,
    classSize_eq_254 hne fun b => ?_⟩ <;>
  · rw [mnemonic_classify_escapePending]
    split_ifs <;> simp_all

/-- Settles O6: the laws of `classify`, and the sizes of the classes mode by mode. -/
theorem everyByteIsOneOperationOfItsMode : Obligations.EveryByteIsOneOperationOfItsMode := by
  refine ⟨fun m b rest => ⟨rfl, classify_mode m b, classify_wf m b, encode_classify m b,
    fun i => eq_classify_of_encode⟩, fun b s => ⟨_, feed_eq b s⟩, ?_⟩
  obtain ⟨hend, hesc, hdata⟩ := classSize_normal
  obtain ⟨hescEnd, hescEsc, hpass⟩ := classSize_escapePending
  exact ⟨hend, hesc, hdata, hescEnd, hescEsc, hpass⟩

/-! ## The decoder written from the table (R46) -/

/-- A row with mask `0xFF` applies to its own byte alone. -/
theorem applies_of_full_mask {r : OpcodeRow} (h : r.mask = 0xFF) (m : Mode) (b : Byte) :
    r.applies m b = (r.mode == m && b == r.pattern) := by
  have hand : b &&& 0xFF = b := BitVec.and_allOnes
  rw [OpcodeRow.applies, h, hand]

/-- A row with mask `0x00` and match `0x00` applies to every byte. -/
theorem applies_of_empty_mask {r : OpcodeRow} (h : r.mask = 0x00) (hp : r.pattern = 0x00) (m : Mode) (b : Byte) :
    r.applies m b = (r.mode == m) := by
  have hand : b &&& 0x00 = 0x00 := BitVec.and_zero
  rw [OpcodeRow.applies, h, hp, hand, beq_self_eq_true, Bool.and_true]

/-- DATA's row, the third, is the one found for a byte that is neither of the two fixed bytes of `Normal` mode. -/
theorem table_finds_data_row {b : Byte} (hend : b ≠ 0xC0#8) (hesc : b ≠ 0xDB#8) :
    tableRow? .normal b = some opcodeTable[2] ∧ tableRowsByExcludes .normal b = [opcodeTable[2]] := by
  constructor
  · simp [tableRow?, opcodeTable, applies_of_full_mask, applies_of_empty_mask, hend, hesc]
  · simp [tableRowsByExcludes, opcodeTable, applies_of_full_mask, applies_of_empty_mask, hend, hesc]

/-- PASS's row, the sixth, is the one found for a byte that is neither of the two fixed bytes of `EscapePending` mode. -/
theorem table_finds_pass_row {b : Byte} (hescEnd : b ≠ 0xDC#8) (hescEsc : b ≠ 0xDD#8) :
    tableRow? .escapePending b = some opcodeTable[5] ∧ tableRowsByExcludes .escapePending b = [opcodeTable[5]] := by
  constructor
  · simp [tableRow?, opcodeTable, applies_of_full_mask, applies_of_empty_mask, hescEnd, hescEsc]
  · simp [tableRowsByExcludes, opcodeTable, applies_of_full_mask, applies_of_empty_mask, hescEnd,
      hescEsc]

/-- Settles O7: the two fixed bytes of each mode find their own row by computation, every other byte finds the row of the
catch-all class. -/
theorem tableDecoderFindsTheClass : Obligations.TableDecoderFindsTheClass := by
  intro m b
  cases m with
  | normal =>
    by_cases hend : b = Marker.END
    · subst hend; exact ⟨_, rfl, rfl, rfl, rfl, rfl⟩
    by_cases hesc : b = Marker.ESC
    · subst hesc; exact ⟨_, rfl, rfl, rfl, rfl, rfl⟩
    obtain ⟨hrow, hexcludes⟩ := table_finds_data_row hend hesc
    rw [classify_normal_of_ne hend hesc]
    exact ⟨_, hrow, rfl, hexcludes, rfl, rfl⟩
  | escapePending =>
    by_cases hescEnd : b = Marker.ESC_END
    · subst hescEnd; exact ⟨_, rfl, rfl, rfl, rfl, rfl⟩
    by_cases hescEsc : b = Marker.ESC_ESC
    · subst hescEsc; exact ⟨_, rfl, rfl, rfl, rfl, rfl⟩
    obtain ⟨hrow, hexcludes⟩ := table_finds_pass_row hescEnd hescEsc
    rw [classify_escapePending_of_ne hescEnd hescEsc]
    exact ⟨_, hrow, rfl, hexcludes, rfl, rfl⟩

end Sys2Proof.Machine
end

section
/-! Proofs of the statements about the invariant and the limit (spec/00_scope.md R4 and R6, spec/10_state.md R17): every
step keeps it, reset has it, and `MAXLEN` bounds what the block holds and emits. -/

namespace Sys2Proof.Machine

/-! ## The invariant -/

/-- Which packets may be emitted depends on `MAXLEN` alone. -/
theorem packetOk_congr {s t : State} (h : t.config = s.config) (p : Packet) : t.PacketOk p ↔ s.PacketOk p := by
  rw [State.PacketOk, State.PacketOk, h]

/-- Every event keeps the invariant: the block stays good, the packet on the ports is new or gone, and the sink gains at
most that packet. -/
theorem eventEffect_inv (e : Event) {s : State} (h : s.Inv) : (eventEffect e s).Inv := by
  obtain ⟨hok, -, hsink⟩ := h
  have hout : ∀ p ∈ (eventEffect e s).out.toList, s.PacketOk p :=
    fun p hp => eventEffect_out_ok e hok (Option.mem_toList.1 hp)
  have hsink' : ∀ p ∈ (eventEffect e s).sink, s.PacketOk p := by
    rw [eventEffect_sink]
    exact fun p hp => (List.mem_append.1 hp).elim (hsink p) (hout p)
  have hcongr := packetOk_congr (eventEffect_config e s)
  exact ⟨eventEffect_blockOk e hok, fun p hp => (hcongr p).2 (hout p hp), fun p hp => (hcongr p).2 (hsink' p hp)⟩

/-- Taking an edge from the input keeps the invariant, which does not speak of the input. -/
theorem nextEdge_inv {s : State} (h : s.Inv) : s.nextEdge.2.Inv := by
  rw [nextEdge_state]
  exact h

/-- What a step leaves, when it is given as an outcome. -/
theorem eq_of_step {s t : State} (h : step s = .next t) : t = eventEffect s.nextEdge.1.event s.nextEdge.2 :=
  (Host.Outcome.next.inj ((step_eq s).symm.trans h)).symm

/-- Every step keeps the invariant (R17). -/
theorem step_inv {s t : State} (h : s.Inv) (hstep : step s = .next t) : t.Inv := by
  rw [eq_of_step hstep]
  exact eventEffect_inv _ (nextEdge_inv h)

/-- Settles O33: the fetch keeps the invariant and so does every event. -/
theorem everyStepKeepsTheInvariant : Obligations.EveryStepKeepsTheInvariant :=
  fun _ _ => step_inv

/-- The reset state of every configuration has the invariant: nothing is accumulated, emitted or with the sink. -/
theorem State.resetOf_inv (c : Config) : (State.resetOf c).Inv :=
  ⟨(State.resetOf_atReset c).blockOk, by simp, by simp⟩

/-- Settles O32: `State.resetOf_inv`, and the machine's reset state is that of the standard configuration. -/
theorem invariantHoldsAtReset : Obligations.InvariantHoldsAtReset :=
  ⟨State.resetOf_inv, State.resetOf_inv Config.standard⟩

/-! ## `MAXLEN` (R4) -/

/-- A configuration is had for every positive `MAXLEN`, and it has that `MAXLEN`. -/
theorem ofMaxLen?_of_pos {n : Nat} (h : 0 < n) : ∃ c, Config.ofMaxLen? n = some c ∧ c.maxLen = n :=
  ⟨{ maxLen := n, maxLen_pos := h }, dif_pos h, rfl⟩

/-- No step changes the configuration. -/
theorem step_config {s t : State} (h : step s = .next t) : t.config = s.config := by
  rw [eq_of_step h, eventEffect_config, nextEdge_config]

/-- The invariant bounds the accumulator and the packet on the ports. -/
theorem State.Inv.bounds {s : State} (h : s.Inv) :
    s.acc.length ≤ s.config.maxLen ∧ ∀ p, s.out = some p → p.length ≤ s.config.maxLen := by
  obtain ⟨⟨hrec, hacc⟩, hout, -⟩ := h
  exact ⟨hacc.trans_le hrec, fun p hp => (hout p (Option.mem_toList.2 hp)).2⟩

/-- Settles O2: a configuration carries its positivity, a step keeps the configuration, and the invariant, which it keeps
too, gives the bounds. -/
theorem maxLenIsPositiveFixedAndBoundsPackets : Obligations.MaxLenIsPositiveFixedAndBoundsPackets :=
  ⟨Config.maxLen_pos, rfl, fun _ => ofMaxLen?_of_pos, rfl,
    fun _ _ hstep => ⟨step_config hstep, fun hinv => (step_inv hinv hstep).bounds⟩⟩

/-! ## The width of the count (R6) -/

/-- `CW` bits hold `MAXLEN`, and one bit less does not. -/
theorem countWidth_bounds (c : Config) : 2 ^ (c.countWidth - 1) ≤ c.maxLen ∧ c.maxLen < 2 ^ c.countWidth :=
  ⟨Nat.log2_self_le c.maxLen_pos.ne', Nat.lt_log2_self⟩

/-- In a good state `CW` bits hold the count. -/
theorem received_lt_of_blockOk {s : State} (h : s.BlockOk) : s.received < 2 ^ s.config.countWidth :=
  h.1.trans_lt (countWidth_bounds s.config).2

/-- Settles O3: `MAXLEN` fits `CW` bits, and `append` leaves a good state, whose count is at most `MAXLEN`. -/
theorem countFitsItsWidth : Obligations.CountFitsItsWidth := by
  refine ⟨by decide, countWidth_bounds, fun v s hok => ⟨received_lt_of_blockOk hok, ?_⟩⟩
  have happend := received_lt_of_blockOk (append_blockOk v hok)
  rwa [append_config] at happend

end Sys2Proof.Machine
end

section
/-! Proofs of the statements about runs and the machine's steps (spec/42_stream_laws.md R70, spec/50_interfaces.md R87 to R89,
spec/60_exceptions.md R104, spec/70_reset_and_hazards.md R120 and R121): runs split, steps over edges are the run of their
events, waiting, reset, and what each step gives the sink. -/

namespace Sys2Proof.Machine

/-! ## The run function (R70) -/

/-- Settles O35: the two equations by `run_cons`, totality by `run_eq`, and the splitting by `run_append`. -/
theorem runIsSequentialAndSplits : Obligations.RunIsSequentialAndSplits := by
  refine ⟨fun s => rfl, fun s b rest => ?cons, fun s xs ys => ?split⟩
  case cons =>
    have hfeed := feed_eq b s
    have hrest := run_eq (effect (classify s.mode b) s) rest
    exact ⟨_, _, _, hfeed, hrest, run_cons hfeed hrest⟩
  case split =>
    have hxs := run_eq s xs
    have hys := run_eq (runState s (xs.map .byte)) ys
    exact ⟨_, _, _, _, hxs, hys, run_append hxs hys⟩

/-! ## Steps are the run of the edges' events (R87) -/

/-- The fetch, when there is an edge to take. -/
theorem nextEdge_of_cons {s : State} {e : Edge} {rest : List Edge} (h : s.input = e :: rest) :
    s.nextEdge = (e, { s with input := rest }) := by
  rw [State.nextEdge, h]

/-- One more step of the host's run, when there is an edge to take. -/
theorem core_run_succ_of_cons {s : State} {e : Edge} {rest : List Edge} (h : s.input = e :: rest) (n : Nat) :
    Host.Core.run Sys2Proof.core (n + 1) s =
      Host.Core.run Sys2Proof.core n (eventEffect e.event { s with input := rest }) := by
  rw [core_run_succ, nextEdge_of_cons h]

/-- As many steps as there are edges leave what the run of the edges' events leaves, with the later edges to come. -/
theorem core_run_edges {s : State} {edges later : List Edge} (h : s.input = edges ++ later) :
    Host.Core.run Sys2Proof.core edges.length s =
      .next { runState s (edges.map Edge.event) with input := later } := by
  induction edges generalizing s with
  | nil => rw [List.nil_append] at h; rw [← h]; rfl
  | cons e edges ih =>
    have hinput : (eventEffect e.event { s with input := edges ++ later }).input = edges ++ later :=
      eventEffect_input _ _
    rw [List.length_cons, core_run_succ_of_cons (rest := edges ++ later) h, ih hinput, eventEffect_input_comm,
      runState_input_comm, List.map_cons, runState_cons]

/-- Settles O36: `core_run_edges`, with the packets and the sink of the run that `runEvents_eq` names. -/
theorem stepsOfTheMachineAreTheRun : Obligations.StepsOfTheMachineAreTheRun :=
  fun s edges _ hinput => ⟨_, _, runEvents_eq s (edges.map Edge.event), core_run_edges hinput, runState_sink s _⟩

/-- Settles O25: the edge of a byte is that byte's event, and the decoder reads the byte's class. -/
theorem stepRunsTheDecodedOperation : Obligations.StepRunsTheDecodedOperation := by
  intro s e edges i rest later hinput hrst hvalid hdecode
  obtain ⟨rfl, rfl⟩ := Prod.mk.inj (Option.some.inj hdecode)
  have hevent : e.event = .byte e.inData := by simp [Edge.event, hrst, hvalid]
  refine ⟨classify_wf _ _, rfl, ?_⟩
  rw [step_cons hinput, hevent, eventEffect, exec_eq]

/-! ## The sink (R22, R89) -/

/-- A step gives the sink its result and nothing else. -/
theorem stepEffect_sink (s : State) :
    (eventEffect s.nextEdge.1.event s.nextEdge.2).sink =
      s.sink ++ (eventEffect s.nextEdge.1.event s.nextEdge.2).out.toList := by
  rw [eventEffect_sink, nextEdge_state]

/-- Over any number of steps the sink only grows at its end. -/
theorem core_run_sink (n : Nat) (s : State) :
    ∃ t, Host.Core.run Sys2Proof.core n s = .next t ∧ s.sink <+: t.sink := by
  induction n generalizing s with
  | zero => exact ⟨s, core_run_zero s, [], List.append_nil _⟩
  | succ n ih =>
    obtain ⟨t, hrun, hgrow⟩ := ih (eventEffect s.nextEdge.1.event s.nextEdge.2)
    rw [stepEffect_sink] at hgrow
    exact ⟨t, by rw [core_run_succ, hrun], List.IsPrefix.trans ⟨_, rfl⟩ hgrow⟩

/-- Settles O37: the sink of one step and of any number of steps. -/
theorem eachPacketReachesTheSinkOnceInOrder : Obligations.EachPacketReachesTheSinkOnceInOrder :=
  ⟨fun s => ⟨_, step_eq s, stepEffect_sink s⟩, core_run_sink⟩

/-! ## Waiting (R88) -/

/-- An edge with neither byte nor reset is no event. -/
theorem event_of_quiet {e : Edge} (h : e.rst = false ∧ e.inValid = false) : e.event = .nothing := by
  simp [Edge.event, h]

/-- When the next edge, if there is one, is quiet, the step is a wait. -/
theorem nextEdge_event_of_quiet {s : State} (h : ∀ e ∈ s.input.head?, e.rst = false ∧ e.inValid = false) :
    s.nextEdge.1.event = .nothing := by
  rw [nextEdge_edge]
  cases hinput : s.input with
  | nil => rfl
  | cons e rest => exact event_of_quiet (h e (by rw [hinput]; rfl))

/-- Any number of quiet edges only empties the result and takes the edges away. -/
theorem core_run_quiet (n : Nat) (s : State) (h : ∀ e ∈ s.input.take n, e.rst = false ∧ e.inValid = false) :
    Host.Core.run Sys2Proof.core n s =
      .next { s with out := if 0 < n then none else s.out, input := s.input.drop n } := by
  induction n generalizing s with
  | zero => rfl
  | succ n ih =>
    have hevent : s.nextEdge.1.event = .nothing :=
      nextEdge_event_of_quiet fun e he => h e (by cases hinput : s.input <;> simp_all)
    have htail : ∀ e ∈ s.input.tail.take n, e.rst = false ∧ e.inValid = false :=
      fun e he => h e (List.mem_of_mem_tail (by rwa [List.tail_take_eq_take_tail]))
    rw [core_run_succ, hevent, nextEdge_state, eventEffect, ih _ htail]
    simp [wait, emitNothing]

/-- Waiting leaves the block. -/
theorem wait_block (s : State) : (wait s).block = s.block := rfl

/-- The events of a run without the idle ones. -/
def withoutIdle (es : List Event) : List Event := es.filter (fun e => e != .nothing)

@[simp] theorem withoutIdle_nothing (es : List Event) : withoutIdle (.nothing :: es) = withoutIdle es := rfl

theorem withoutIdle_cons_of_ne {e : Event} (h : e ≠ .nothing) (es : List Event) :
    withoutIdle (e :: es) = e :: withoutIdle es :=
  List.filter_cons_of_pos (bne_iff_ne.2 h)

/-- Taking the idle events out of a run changes neither the block it ends in nor its packets. -/
theorem run_withoutIdle (s : State) (es : List Event) :
    (runState s es).block = (runState s (withoutIdle es)).block ∧
    runPackets s es = runPackets s (withoutIdle es) := by
  induction es generalizing s with
  | nil => exact ⟨rfl, rfl⟩
  | cons e es ih =>
    by_cases hidle : e = .nothing
    · subst hidle
      obtain ⟨hblock, hpackets⟩ := run_block_congr es (wait_block s) (wait_config s)
      obtain ⟨hblock', hpackets'⟩ := ih s
      exact ⟨hblock.trans hblock', hpackets.trans hpackets'⟩
    · obtain ⟨hblock, hpackets⟩ := ih (eventEffect e s)
      rw [withoutIdle_cons_of_ne hidle, runState_cons, runState_cons, runPackets_cons, runPackets_cons, hpackets]
      exact ⟨hblock, rfl⟩

/-- Settles O27: `core_run_quiet` for the steps, `run_withoutIdle` for the run, whose sink is told by its packets. -/
theorem waitingChangesNothing : Obligations.WaitingChangesNothing := by
  refine ⟨fun n s hquiet => ⟨_, core_run_quiet n s hquiet, rfl, rfl, rfl, fun hn => if_pos hn⟩, fun s es => ?gaps⟩
  case gaps =>
    obtain ⟨hblock, hpackets⟩ := run_withoutIdle s es
    have hsink : (runState s es).sink = (runState s (withoutIdle es)).sink := by
      rw [runState_sink, runState_sink, hpackets]
    have hidle := runEvents_eq s (withoutIdle es)
    rw [← hpackets] at hidle
    exact ⟨_, _, _, runEvents_eq s es, hidle, hblock, hsink⟩

/-! ## Reset and transport failures (R104, R120, R121) -/

/-- A step at an edge that requests reset is the reset event, whatever is on the byte input. -/
theorem step_reset {s : State} {e : Edge} {edges : List Edge} (hinput : s.input = e :: edges) (hrst : e.rst = true) :
    step s = .next (resetEvent { s with input := edges }) := by
  have hevent : e.event = .reset := by simp [Edge.event, hrst]
  rw [step_cons hinput, hevent, eventEffect]

/-- In the reset state a plain data byte is the first of the packet, since `MAXLEN` is positive. -/
theorem feed_data_of_atReset {s : State} {b : Byte} (h : s.AtReset) (hclass : classify .normal b = .data b) :
    ∃ t, feed b s = .next t ∧ t.block = (.normal, 1, [b]) := by
  obtain ⟨hm, hrec, hacc⟩ := s.atReset_iff.1 h
  have hlt : s.received < s.config.maxLen := by rw [hrec]; exact s.config.maxLen_pos
  exact ⟨_, by rw [feed_eq, hm, hclass, effect_data, if_pos hlt], by simp [State.block, hm, hrec, hacc]⟩

/-- Settles O28: the reset event is a record update, which leaves the reset state, and there `0xDC` is plain data. -/
theorem resetEventFromAnyState : Obligations.ResetEventFromAnyState := by
  intro s
  have hreset : (resetEvent s).AtReset := resetEvent_atReset s
  exact ⟨resetEvent s, onEvent_eq .reset s, rfl, hreset, onEvent_eq .reset (resetEvent s), fun b => rfl,
    feed_data_of_atReset hreset rfl⟩

/-- When a step has no result, every allowed port value has `pkt_valid = 0` (R90). -/
theorem State.Drives.pktValid_eq_false {s : State} {o : OutPorts s.config} (h : s.Drives o) (hout : s.out = none) :
    o.pktValid = false := by
  obtain ⟨-, hvalid, -⟩ := h
  rw [hvalid, hout]; rfl

/-- Settles O29: the step is the reset event in the state the edge was taken from, which has no result. -/
theorem resetWinsOverAByteAtTheSameEdge : Obligations.ResetWinsOverAByteAtTheSameEdge :=
  fun _ _ _ _ hinput => ⟨_, step_reset hinput rfl, rfl, fun _ hdrives => hdrives.pktValid_eq_false rfl⟩

/-- Settles O30: a failed read and a timeout are both the quiet edge, and the restart is an edge that requests reset. -/
theorem transportFailureIsNoByte : Obligations.TransportFailureIsNoByte := by
  refine ⟨fun s r edges hr hinput => ?failure, fun s inValid b edges hinput => ?restart⟩
  case failure =>
    have hquiet : r.edge = Edge.quiet := by rcases hr with rfl | rfl <;> rfl
    rw [step_cons hinput, hquiet]; rfl
  case restart => exact ⟨_, step_reset hinput rfl, resetEvent_atReset _, rfl⟩

end Sys2Proof.Machine
end

section
/-! Proofs of the statements about the frames of the operations, the mode and the anomalies (spec/10_state.md R11,
spec/20_memory.md R26, spec/60_exceptions.md R101 and R106). -/

namespace Sys2Proof.Machine

/-! ## Frames -/

/-- The readable cells depend on the accumulator and the count alone. -/
theorem readCell_congr {s t : State} (hacc : t.acc = s.acc) (hrec : t.received = s.received) (a : Nat) :
    t.readCell a = s.readCell a := by
  rw [State.readCell, State.readCell, hacc, hrec]

/-- No cell is readable in a state that has received nothing. -/
theorem readCell_of_received_eq_zero {s : State} (h : s.received = 0) (a : Nat) : s.readCell a = none :=
  if_neg (by omega)

/-- The count grows by the cell that was stored to. -/
theorem append_received_storeIndex (v : Byte) (s : State) :
    (append v s).received = s.received + (if s.storeIndex = none then 0 else 1) := by
  rcases append_cases v s with ⟨hlt, happ⟩ | ⟨hge, happ⟩
  · rw [happ, storeIndex_of_lt hlt]; rfl
  · rw [happ, storeIndex_of_not_lt hge]; rfl

/-- Of the operations with a payload DATA keeps the mode, and the resolvers return to `Normal`. -/
theorem effect_mode_of_payload {i : Instr} {v : Byte} (h : payload i = some v) (s : State) :
    (effect i s).mode = if i = .data v then s.mode else .normal := by
  cases i with
  | endPkt => cases h
  | esc => cases h
  | data b => obtain rfl := Option.some.inj h; simp [effect]
  | escEnd => rfl
  | escEsc => rfl
  | pass b => rfl

/-- Settles O18: an operation with a payload has the cells and the count of `append`, whose cells are
`readCell_append_same` and `readCell_append_other`. -/
theorem appendingOperationsFrame : Obligations.AppendingOperationsFrame := by
  intro i v s hi hok
  obtain ⟨hacc, hrec, hout⟩ := effect_of_payload hi s
  have hcell : ∀ a, (effect i s).readCell a = (append v s).readCell a := readCell_congr hacc hrec
  refine ⟨_, exec_eq i s, fun a ha => ?_, fun a ha => ?_, hrec.trans (append_received_storeIndex v s),
    effect_mode_of_payload hi s, hout, effect_config i s, ?_, effect_input i s⟩
  · rw [hcell, readCell_append_same hok ha]
  · rw [hcell, readCell_append_other hok ha]
  · rw [effect_sink, hout, Option.toList_none, List.append_nil]

/-- Settles O19: ESC is the record update `effect_esc`, and END leaves the reset state, which has no readable cell. -/
theorem escAndEndFrame : Obligations.EscAndEndFrame := by
  intro s
  refine ⟨⟨_, exec_eq .esc s, readCell_congr rfl rfl, rfl, rfl, rfl, rfl, rfl, rfl, rfl⟩, ?_⟩
  obtain ⟨hm, hrec, -⟩ := (State.atReset_iff _).1 (effect_endPkt_atReset s)
  exact ⟨_, exec_eq .endPkt s, readCell_of_received_eq_zero hrec, hm, effect_sink .endPkt s, effect_config .endPkt s,
    effect_input .endPkt s⟩

/-! ## The mode (R11, R73) -/

/-- After a byte an escape is pending exactly when the byte was an introducer. -/
theorem effect_classify_mode_escapePending_iff (b : Byte) (s : State) :
    (effect (classify s.mode b) s).mode = .escapePending ↔ s.mode = .normal ∧ b = Marker.ESC := by
  rw [effect_classify_mode, nextMode_escapePending_iff, classify_eq_esc_iff]

/-- Settles O22: `effect_classify_mode_escapePending_iff` for every byte and state. -/
theorem escapePendingMeansLastByteWasIntroducer : Obligations.EscapePendingMeansLastByteWasIntroducer :=
  ⟨⟨rfl, rfl⟩, rfl, fun b s => ⟨_, feed_eq b s, effect_classify_mode_escapePending_iff b s⟩⟩

/-- From `EscapePending` every byte leads to `Normal`: every class of that mode has a payload. -/
theorem feed_mode_of_escapePending {s : State} (hm : s.mode = .escapePending) (b : Byte) :
    ∃ t, feed b s = .next t ∧ t.mode = .normal := by
  obtain ⟨v, hpay, -⟩ := classify_escapePending b
  rw [← hm] at hpay
  obtain ⟨t, hfeed, hmode, -, -⟩ := feed_of_payload hpay
  exact ⟨t, hfeed, hmode⟩

/-- Two bytes `0xDB` from `Normal` are an introducer and its invalid resolver, and the walk is back in `Normal`. -/
theorem classes_esc_esc (bs : List Byte) : classes .normal (Marker.ESC :: Marker.ESC :: bs) =
    .esc :: .pass Marker.ESC :: classes .normal bs := rfl

theorem modeAfter_esc_esc (bs : List Byte) : modeAfter .normal (Marker.ESC :: Marker.ESC :: bs) =
    modeAfter .normal bs := rfl

/-- In a run of `0xDB` the classes alternate, introducer first. -/
theorem classes_replicate_esc (m i : Nat) (h : i < m) : (classes .normal (List.replicate m Marker.ESC))[i]? =
    some (if i % 2 = 0 then .esc else .pass Marker.ESC) := by
  induction m using Nat.twoStepInduction generalizing i with
  | zero => omega
  | one =>
    obtain rfl : i = 0 := by omega
    rfl
  | more m ih _ =>
    rw [List.replicate_succ, List.replicate_succ, classes_esc_esc]
    match i with
    | 0 => rfl
    | 1 => rfl
    | i + 2 => rw [List.getElem?_cons_succ, List.getElem?_cons_succ, ih i (by omega), Nat.add_mod_right]

/-- A run of `m` bytes `0xDB` decodes to half as many, and leaves an escape pending exactly when `m` is odd. -/
theorem decode_replicate_esc (m : Nat) :
    decodedSequence .normal (List.replicate m Marker.ESC) = List.replicate (m / 2) Marker.ESC ∧
    (modeAfter .normal (List.replicate m Marker.ESC) = .escapePending ↔ m % 2 = 1) := by
  induction m using Nat.twoStepInduction with
  | zero => exact ⟨rfl, by decide⟩
  | one => exact ⟨rfl, by decide⟩
  | more m ih _ =>
    obtain ⟨hseq, hmode⟩ := ih
    rw [List.replicate_succ, List.replicate_succ, modeAfter_esc_esc, hmode, Nat.add_mod_right,
      Nat.add_div_right m (by decide), List.replicate_succ, ← hseq]
    exact ⟨rfl, Iff.rfl⟩

/-- Settles O24: two pending escapes in a row would make the second byte an introducer of both modes; the run of `0xDB` is
a stretch without END, so it leaves its decoded sequence and the walk's mode. -/
theorem escapeLastsExactlyOneByte : Obligations.EscapeLastsExactlyOneByte := by
  refine ⟨fun b s hm => feed_mode_of_escapePending hm b, fun b c s => ?twice, classes_replicate_esc,
    fun m s hok hm => ?run⟩
  case twice =>
    refine ⟨_, _, feed_eq b s, feed_eq c _, fun ⟨hfirst, hsecond⟩ => ?_⟩
    obtain ⟨hnormal, -⟩ := (effect_classify_mode_escapePending_iff c _).1 hsecond
    exact absurd (hfirst.symm.trans hnormal) (by decide)
  case run =>
    have hno : Marker.END ∉ List.replicate m Marker.ESC :=
      fun hmem => absurd (List.eq_of_mem_replicate hmem) (by decide)
    obtain ⟨hseq, hpending⟩ := decode_replicate_esc m
    obtain ⟨t, hrun, -, hmode, hacc⟩ := run_of_endFree hok (endFree_of_no_end s.mode hno)
    rw [hm] at hmode hacc
    exact ⟨t, hrun, by rw [hacc, hseq]; rfl, by rw [hmode, hpending]⟩

/-! ## Anomalies (R101, R106) -/

theorem dupEnd_mem_anomalies_iff (s : State) (b : Byte) :
    .dupEnd ∈ anomalies s b ↔ classify s.mode b = .endPkt ∧ s.received = 0 := by
  rw [mem_anomalies]
  cases classify s.mode b <;> simp [Anomaly.occurs]

theorem badEsc_mem_anomalies_iff (s : State) (b : Byte) :
    .badEsc ∈ anomalies s b ↔ classify s.mode b = .pass b := by
  rw [mem_anomalies]
  cases hclass : classify s.mode b <;> simp [Anomaly.occurs]
  obtain ⟨-, -, -, heq⟩ := (classify_eq_pass_iff _ _ _).1 hclass
  exact heq.symm

theorem oversize_mem_anomalies_iff (s : State) (b : Byte) :
    .oversize ∈ anomalies s b ↔
      (∃ v, payload (classify s.mode b) = some v) ∧ s.received = s.config.maxLen := by
  rw [mem_anomalies, Anomaly.occurs, Bool.and_eq_true, Option.isSome_iff_exists, State.full, beq_iff_eq]

/-- END and ESC are the classes without a payload (R37). -/
theorem exists_payload_iff (i : Instr) : (∃ v, payload i = some v) ↔ i ≠ .endPkt ∧ i ≠ .esc := by
  cases i <;> simp [payload]

/-- The anomalies of a step are none, one, or `BAD_ESC` with `OVERSIZE`. -/
theorem anomalies_at_most_one (s : State) (b : Byte) :
    (anomalies s b).length ≤ 1 ∨ anomalies s b = [.badEsc, .oversize] := by
  rw [anomalies_eq]
  cases classify s.mode b
  case pass =>
    dsimp only
    split
    · exact .inr rfl
    · exact .inl (Nat.le_refl 1)
  case esc => exact .inl (Nat.zero_le 1)
  all_goals exact .inl (by dsimp only; split <;> simp)

/-- An operation with a payload leaves a full accumulator as it is. -/
theorem effect_of_payload_full {i : Instr} {v : Byte} {s : State} (hi : payload i = some v)
    (hfull : s.received = s.config.maxLen) :
    (effect i s).acc = s.acc ∧ (effect i s).received = s.received ∧ (effect i s).out = none := by
  obtain ⟨hacc, hrec, hout⟩ := effect_of_payload hi s
  rw [append_of_not_lt v (by omega)] at hacc hrec
  exact ⟨hacc, hrec, hout⟩

/-- Settles O31: each anomaly by its membership lemma, and what its step leaves by the effect of its class. -/
theorem anomaliesOccurExactlyAndAreResolvedInTheStep : Obligations.AnomaliesOccurExactlyAndAreResolvedInTheStep := by
  intro b s
  refine ⟨dupEnd_mem_anomalies_iff s b, ?badEsc, ?oversize, ?none, anomalies_at_most_one s b, _, feed_eq b s,
    fun hdup => ?dupStep, fun hbad => ?badStep, fun hover => ?overStep⟩
  case badEsc =>
    rw [badEsc_mem_anomalies_iff, classify_eq_pass_iff]
    exact ⟨fun ⟨hm, hescEnd, hescEsc, _⟩ => ⟨hm, hescEnd, hescEsc⟩,
      fun ⟨hm, hescEnd, hescEsc⟩ => ⟨hm, hescEnd, hescEsc, rfl⟩⟩
  case oversize => rw [oversize_mem_anomalies_iff, exists_payload_iff, and_assoc]
  case none =>
    rintro (hclass | ⟨hclass, hpos⟩)
    · exact anomalies_of_esc hclass
    · rw [anomalies_of_endPkt hclass, if_neg hpos.ne']
  case dupStep =>
    obtain ⟨hclass, hrec⟩ := (dupEnd_mem_anomalies_iff s b).1 hdup
    rw [hclass]
    exact ⟨by simp [effect_out, hrec], effect_endPkt_atReset s⟩
  case badStep =>
    have hpay : payload (classify s.mode b) = some b := by rw [(badEsc_mem_anomalies_iff s b).1 hbad]; rfl
    obtain ⟨-, -, hout⟩ := effect_of_payload hpay s
    exact ⟨appendedBetween_effect hpay s, (effect_classify_mode b s).trans (nextMode_of_payload hpay), hout⟩
  case overStep =>
    obtain ⟨⟨v, hpay⟩, hfull⟩ := (oversize_mem_anomalies_iff s b).1 hover
    exact effect_of_payload_full hpay hfull

end Sys2Proof.Machine
end

section
/-! Proofs of the statements about what a stream decodes to (spec/42_stream_laws.md R71, R77, R78, R80; spec/30_encoding.md
R44; spec/10_state.md R17; spec/20_memory.md R32): where packets come from, the content of a packet, the pseudo-operations,
well-formed input, resynchronisation, and which states are reached. -/

namespace Sys2Proof.Machine

/-! ## The content of a packet (R77) -/

/-- A stretch without END from the reset state leaves the first `MAXLEN` bytes of its decoded sequence. -/
theorem run_endFree_of_atReset {s : State} {bs : List Byte} (hs : s.AtReset) (he : endFree .normal bs = true) :
    ∃ t, run s bs = .next (t, []) ∧ t.BlockOk ∧ t.mode = modeAfter .normal bs ∧
      t.acc = (decodedSequence .normal bs).take s.config.maxLen := by
  obtain ⟨hm, -, hnil⟩ := s.atReset_iff.1 hs
  simpa [hm, hnil] using run_of_endFree hs.blockOk (by rw [hm]; exact he)

/-- A good state whose accumulator is the first `MAXLEN` bytes of `d` has received something exactly when `d` is not
empty, since `MAXLEN` is positive. -/
theorem received_pos_iff_of_acc_take {s : State} {c : Config} {d : List Byte} (hok : s.BlockOk)
    (hacc : s.acc = d.take c.maxLen) : 0 < s.received ↔ d ≠ [] := by
  have hmax := c.maxLen_pos
  rw [← hok.2, hacc, List.length_take, ← List.length_pos_iff]
  omega

/-- What the next byte classified END emits after such a stretch. -/
theorem effect_endPkt_out_of_acc_take {s : State} {c : Config} {d : List Byte} (hok : s.BlockOk)
    (hacc : s.acc = d.take c.maxLen) :
    (effect .endPkt s).out = if d = [] then none else some (d.take c.maxLen) := by
  have hpos := received_pos_iff_of_acc_take hok hacc
  rw [effect_out, packet_eq hok, hacc]
  by_cases hd : d = [] <;> simp [hpos, hd]

/-- A byte of the stretch, told by its class, adds the class's payload to the decoded sequence. -/
theorem decodedSequence_cons_of_payload {m : Mode} {b v : Byte} (h : payload (classify m b) = some v) (bs : List Byte) :
    decodedSequence m (b :: bs) = v :: decodedSequence .normal bs := by
  rw [decodedSequence_cons, h, nextMode_of_payload h]; rfl

/-- Settles O43: the walk by the payload of each class, and the content law by `run_endFree_of_atReset`. -/
theorem packetContentIsTheDecodedSequence : Obligations.PacketContentIsTheDecodedSequence := by
  refine ⟨fun b bs => ⟨rfl, rfl, rfl, rfl, rfl, fun hescEnd hescEsc => ?pass, fun hend hesc => ?data⟩,
    fun s bs hs he => ?content⟩
  case pass => exact decodedSequence_cons_of_payload (by rw [classify_escapePending_of_ne hescEnd hescEsc]; rfl) bs
  case data => exact decodedSequence_cons_of_payload (by rw [classify_normal_of_ne hend hesc]; rfl) bs
  case content =>
    obtain ⟨t, hrun, hok, -, hacc⟩ := run_endFree_of_atReset hs he
    refine ⟨t, hrun, hacc, by rw [← hok.2, hacc, List.length_take], fun b hclass => ?_⟩
    exact ⟨_, by rw [feed_eq, hclass], effect_endPkt_out_of_acc_take hok hacc⟩

/-! ## The pseudo-operations (R44) -/

theorem lit_end : lit Marker.END = [Marker.ESC, Marker.ESC_END] := rfl

theorem lit_esc : lit Marker.ESC = [Marker.ESC, Marker.ESC_ESC] := rfl

theorem lit_of_ne {v : Byte} (hend : v ≠ Marker.END) (hesc : v ≠ Marker.ESC) : lit v = [v] := by
  rw [lit, if_neg hend, if_neg hesc]

/-- A literal decodes to its byte: the walk goes on in `Normal` mode, and no byte of it is classified END. -/
theorem decode_lit_append (v : Byte) (bs : List Byte) :
    decodedSequence .normal (lit v ++ bs) = v :: decodedSequence .normal bs ∧
    modeAfter .normal (lit v ++ bs) = modeAfter .normal bs ∧ endFree .normal (lit v ++ bs) = endFree .normal bs := by
  by_cases hend : v = Marker.END
  · subst hend; exact ⟨rfl, rfl, rfl⟩
  by_cases hesc : v = Marker.ESC
  · subst hesc; exact ⟨rfl, rfl, rfl⟩
  have hclass : classify .normal v = .data v := classify_normal_of_ne hend hesc
  rw [lit_of_ne hend hesc, List.singleton_append, endFree, classes_cons, modeAfter_cons,
    decodedSequence_cons_of_payload (v := v) (by rw [hclass]; rfl), hclass]
  exact ⟨rfl, rfl, rfl⟩

/-- Literals decode to their bytes. -/
theorem decode_literals (vs : Packet) :
    decodedSequence .normal (vs.flatMap lit) = vs ∧ modeAfter .normal (vs.flatMap lit) = .normal ∧
    endFree .normal (vs.flatMap lit) = true := by
  induction vs with
  | nil => exact ⟨rfl, rfl, rfl⟩
  | cons v vs ih =>
    obtain ⟨hseq, hmode, hfree⟩ := ih
    obtain ⟨hseq', hmode', hfree'⟩ := decode_lit_append v (vs.flatMap lit)
    rw [List.flatMap_cons, hseq', hmode', hfree', hseq]
    exact ⟨rfl, hmode, hfree⟩

/-- Literals from the reset state leave the first `MAXLEN` of their bytes in the accumulator. -/
theorem run_literals_of_atReset {s : State} (hs : s.AtReset) (vs : Packet) :
    ∃ t, run s (vs.flatMap lit) = .next (t, []) ∧ t.BlockOk ∧ t.mode = .normal ∧ t.acc = vs.take s.config.maxLen := by
  obtain ⟨hseq, hmode, hfree⟩ := decode_literals vs
  simpa [hseq, hmode] using run_endFree_of_atReset hs hfree

/-- `PKT` from the reset state emits the first `MAXLEN` bytes, or nothing when there are none, and resets. -/
theorem run_pkt_of_atReset {s : State} (hs : s.AtReset) (vs : Packet) :
    ∃ t, run s (pkt vs) = .next (t, if vs = [] then [] else [vs.take s.config.maxLen]) ∧ t.AtReset := by
  obtain ⟨t, hrun, hok, hmode, hacc⟩ := run_literals_of_atReset hs vs
  have hclass : classify t.mode Marker.END = .endPkt := (classify_eq_endPkt_iff _ _).2 ⟨hmode, rfl⟩
  have hfeed : feed Marker.END t = .next (effect .endPkt t) := by rw [feed_eq, hclass]
  refine ⟨_, ?_, effect_endPkt_atReset t⟩
  rw [pkt, run_append hrun (run_singleton hfeed), effect_endPkt_out_of_acc_take hok hacc]
  by_cases hnil : vs = [] <;> simp [hnil]

/-- An introducer in `Normal` mode and a byte that resolves to `v` do one append of `v`, back in `Normal` mode. -/
theorem run_esc_resolver {s : State} (hm : s.mode = .normal) {b v : Byte}
    (hpay : payload (classify .escapePending b) = some v) :
    ∃ t, run s [Marker.ESC, b] = .next (t, []) ∧ t.mode = .normal ∧ AppendedBetween v s t := by
  have hclass : classify s.mode Marker.ESC = .esc := (classify_eq_esc_iff _ _).2 ⟨hm, rfl⟩
  have hesc : feed Marker.ESC s = .next { s with mode := .escapePending, out := none } := by
    rw [feed_eq, hclass, effect_esc]
  obtain ⟨t, hfeed, hmode, happ, hout⟩ := feed_of_payload (s := { s with mode := .escapePending, out := none }) hpay
  exact ⟨t, by rw [run_cons hesc (run_singleton hfeed), hout]; rfl, hmode, happ⟩

/-- `LIT v` in `Normal` mode does one append of `v` and emits nothing. -/
theorem run_lit_of_normal {s : State} (hm : s.mode = .normal) (v : Byte) :
    ∃ t, run s (lit v) = .next (t, []) ∧ t.mode = .normal ∧ AppendedBetween v s t := by
  by_cases hend : v = Marker.END
  · subst hend; exact run_esc_resolver hm rfl
  by_cases hesc : v = Marker.ESC
  · subst hesc; exact run_esc_resolver hm rfl
  have hpay : payload (classify s.mode v) = some v := by rw [hm, classify_normal_of_ne hend hesc]; rfl
  obtain ⟨t, hfeed, hmode, happ, hout⟩ := feed_of_payload hpay
  exact ⟨t, by rw [lit_of_ne hend hesc, run_singleton hfeed, hout]; rfl, hmode, happ⟩

/-- `FLUSH` in `Normal` mode emits the accumulator if it is not empty and resets. -/
theorem run_flush_of_normal {s : State} (hok : s.BlockOk) (hm : s.mode = .normal) :
    ∃ t, run s flush = .next (t, if 0 < s.received then [s.acc] else []) ∧ t.AtReset := by
  obtain ⟨t, hfeed, ht, hout⟩ := feed_end_of_normal hok hm
  refine ⟨t, ?_, ht⟩
  rw [flush, run_singleton hfeed, hout]
  split <;> rfl

/-- Settles O44: the expansions, and one lemma for each pseudo-operation. -/
theorem pseudoOperationsDoWhatTheyAbbreviate : Obligations.PseudoOperationsDoWhatTheyAbbreviate := by
  refine ⟨fun v => lit_of_ne, lit_end, lit_esc, fun vs => rfl, rfl, fun v s hm => run_lit_of_normal hm v,
    fun vs s hs hne => ?pkt, fun s => run_flush_of_normal⟩
  case pkt =>
    obtain ⟨t, hrun, ht⟩ := run_pkt_of_atReset hs vs
    exact ⟨t, by rw [hrun, if_neg hne], ht⟩

/-! ## Well-formed input (R78) -/

/-- Packets written with `PKT`, each followed by any number of extra ENDs, are emitted one by one. -/
theorem run_sent_of_atReset {s : State} (hs : s.AtReset) {sent : List (Packet × Nat)} (hne : ∀ p ∈ sent, p.1 ≠ []) :
    ∃ t, run s (sent.flatMap fun p => pkt p.1 ++ List.replicate p.2 Marker.END) =
      .next (t, sent.map fun p => p.1.take s.config.maxLen) ∧ t.AtReset := by
  induction sent generalizing s with
  | nil => exact ⟨s, rfl, hs⟩
  | cons p sent ih =>
    obtain ⟨hp, hsent⟩ := List.forall_mem_cons.1 hne
    obtain ⟨t, hpkt, ht⟩ := run_pkt_of_atReset hs p.1
    obtain ⟨u, hends, hu⟩ := run_ends_of_atReset ht p.2
    obtain ⟨v, hrest, hv⟩ := ih hu hsent
    rw [if_neg hp] at hpkt
    rw [run_config hends, run_config hpkt] at hrest
    exact ⟨v, run_append (run_append hpkt hends) hrest, hv⟩

/-- Settles O45: the leading ENDs are absorbed, the packets are `run_sent_of_atReset`, and a packet that fits is its own
first `MAXLEN` bytes. -/
theorem wellFormedInputDecodesToWhatWasSent : Obligations.WellFormedInputDecodesToWhatWasSent := by
  refine ⟨fun s n sent hs hne => ?_, fun s hs => run_pkt_of_atReset hs []⟩
  obtain ⟨t, hends, ht⟩ := run_ends_of_atReset hs n
  obtain ⟨u, hsent, hu⟩ := run_sent_of_atReset ht hne
  rw [run_config hends] at hsent
  exact ⟨u, run_append hends hsent, hu, fun hfit => List.map_congr_left fun p hp => List.take_of_length_le (hfit p hp)⟩

/-! ## Resynchronisation (R80) -/

/-- One END from `EscapePending` is appended as data: the block is in `Normal` mode with something accumulated, so it is
not reset. -/
theorem feed_end_of_escapePending {s : State} (hok : s.BlockOk) (hm : s.mode = .escapePending) :
    ∃ t, feed Marker.END s = .next t ∧ t.BlockOk ∧ t.mode = .normal ∧ 0 < t.received ∧ t.out = none ∧
      t.acc = (s.acc ++ [Marker.END]).take s.config.maxLen := by
  have hpay : payload (classify s.mode Marker.END) = some Marker.END := by rw [hm]; rfl
  obtain ⟨hacc, -, hout⟩ := effect_of_payload hpay s
  have hok' := effect_blockOk (classify s.mode Marker.END) hok
  rw [append_acc_take _ hok] at hacc
  exact ⟨_, feed_eq _ s, hok', (effect_classify_mode _ s).trans (nextMode_of_payload hpay),
    (received_pos_iff_of_acc_take hok' hacc).2 (by simp), hout, hacc⟩

/-- Settles O46: from `Normal` the first END resets and the second is absorbed; from `EscapePending` the first is data and
the second emits. -/
theorem twoEndsResynchronise : Obligations.TwoEndsResynchronise := by
  intro s hok
  cases hm : s.mode with
  | normal =>
    obtain ⟨t, hfirst, ht, hout⟩ := feed_end_of_normal hok hm
    obtain ⟨u, hsecond, hu, hout'⟩ := feed_end_of_atReset ht
    refine ⟨⟨u, _, run_cons hfirst (run_singleton hsecond), hu, fun _ => ?_, nofun⟩, t, _, run_singleton hfirst, ?_⟩
    · rw [hout, hout']; split <;> rfl
    · exact iff_of_true ht rfl
  | escapePending =>
    obtain ⟨t, hfirst, hok', hm', hpos, hout, hacc⟩ := feed_end_of_escapePending hok hm
    obtain ⟨u, hsecond, hu, hout'⟩ := feed_end_of_normal hok' hm'
    refine ⟨⟨u, _, run_cons hfirst (run_singleton hsecond), hu, nofun, fun _ => ?_⟩, t, _, run_singleton hfirst, ?_⟩
    · rw [hout, hout', if_pos hpos, hacc]; rfl
    · have hnot : ¬ t.AtReset := fun ht => by
        obtain ⟨-, hrec, -⟩ := t.atReset_iff.1 ht
        exact hpos.ne' hrec
      exact iff_of_false hnot nofun

/-! ## Where packets come from (R71) -/

/-- A byte emits exactly when it is an END with something accumulated. -/
theorem feed_emits_iff (b : Byte) (s : State) :
    (effect (classify s.mode b) s).out.isSome = true ↔ b = Marker.END ∧ s.mode = .normal ∧ 0 < s.received := by
  rw [← and_assoc, and_comm (a := b = Marker.END), ← classify_eq_endPkt_iff, effect_out]
  split
  · exact iff_of_true rfl ‹_›
  · exact iff_of_false (by simp) ‹_›

/-- A byte emits at most as many packets as it is a `0xC0`. -/
theorem feed_out_length_le (b : Byte) (s : State) :
    (effect (classify s.mode b) s).out.toList.length ≤ [b].count Marker.END := by
  cases hout : (effect (classify s.mode b) s).out with
  | none => exact Nat.zero_le _
  | some p =>
    obtain ⟨rfl, -, -⟩ := (feed_emits_iff b s).1 (by rw [hout]; rfl)
    exact Nat.le_refl 1

/-- A run of bytes emits at most one packet per `0xC0`. -/
theorem runPackets_length_le (s : State) (bs : List Byte) :
    (runPackets s (bs.map .byte)).length ≤ bs.count Marker.END := by
  induction bs generalizing s with
  | nil => exact Nat.zero_le _
  | cons b bs ih =>
    rw [List.map_cons, runPackets_cons, List.length_append, ← List.singleton_append, List.count_append]
    exact Nat.add_le_add (feed_out_length_le b s) (ih _)

/-- Every packet of a run from a good state has `1..MAXLEN` bytes. -/
theorem runPackets_packetOk (es : List Event) {s : State} (hok : s.BlockOk) : ∀ p ∈ runPackets s es, s.PacketOk p := by
  induction es generalizing s with
  | nil => nofun
  | cons e es ih =>
    intro p hp
    rcases List.mem_append.1 hp with hp | hp
    · exact eventEffect_out_ok e hok (Option.mem_toList.1 hp)
    · exact (packetOk_congr (eventEffect_config e s) p).1 (ih (eventEffect_blockOk e hok) p hp)

/-- Settles O38: one step by `feed_emits_iff`, the number and the lengths of a run's packets by induction along the run. -/
theorem packetsComeOnlyFromEndBytes : Obligations.PacketsComeOnlyFromEndBytes := by
  refine ⟨fun b s => ⟨_, feed_eq b s, feed_emits_iff b s⟩, fun s bs hok => ?_⟩
  have hlen := runPackets_length_le s bs
  refine ⟨_, _, run_eq s bs, hlen, runPackets_packetOk _ hok, fun hno => ?_⟩
  exact List.length_eq_zero_iff.1 (Nat.le_zero.1 (hlen.trans_eq (List.count_eq_zero.2 hno)))

/-! ## The states reached (R17) -/

/-- Every good accumulator is reached in either mode: its literals, and an introducer if an escape is to be pending. -/
theorem block_reached {c : Config} (m : Mode) {acc : List Byte} (h : acc.length ≤ c.maxLen) :
    ∃ bs t, run (State.resetOf c) bs = .next (t, []) ∧ t.block = (m, acc.length, acc) := by
  obtain ⟨t, hrun, hok, hmode, hacc⟩ := run_literals_of_atReset (State.resetOf_atReset c) acc
  rw [State.resetOf_config, List.take_of_length_le h] at hacc
  have hrec : t.received = acc.length := by rw [← hok.2, hacc]
  cases m with
  | normal => exact ⟨_, t, hrun, by rw [State.block, hmode, hrec, hacc]⟩
  | escapePending =>
    obtain ⟨u, hfeed, hblock, hout⟩ := feed_esc_of_normal hmode
    exact ⟨_, u, by rw [run_append hrun (run_singleton hfeed), hout]; rfl, by rw [hblock, hrec, hacc]⟩

/-- Settles O34: a run keeps R17, which reset has, and `block_reached` for the converse. -/
theorem reachableStatesAreExactlyTheAllowedOnes : Obligations.ReachableStatesAreExactlyTheAllowedOnes := by
  intro c k
  constructor
  · rintro ⟨es, t, ps, hrun, rfl⟩
    rw [runEvents_eq] at hrun
    obtain ⟨rfl, -⟩ := Prod.mk.inj (Host.Outcome.next.inj hrun)
    have hok := runState_blockOk es (State.resetOf_atReset c).blockOk
    rw [State.BlockOk, runState_config] at hok
    exact hok
  · obtain ⟨m, n, acc⟩ := k
    rintro ⟨hle, hlen⟩
    obtain rfl : acc.length = n := hlen
    obtain ⟨bs, t, hrun, hblock⟩ := block_reached m hle
    exact ⟨_, t, [], hrun, hblock⟩

/-! ## The values of the cells (R12, R32) -/

/-- Two good states that differ in the values of the accumulator's cells at most (and in the ports, the sink and the input,
which are outside the block). -/
structure DifferInCellsOnly (s s' : State) : Prop where
  left_ok : s.BlockOk
  right_ok : s'.BlockOk
  config : s.config = s'.config
  mode : s.mode = s'.mode
  received : s.received = s'.received

/-- The count that an operation leaves, told by the count, `MAXLEN` and the operation. -/
theorem effect_received (i : Instr) (s : State) : (effect i s).received =
    if i = .endPkt then 0
    else if (payload i).isSome ∧ s.received < s.config.maxLen then s.received + 1 else s.received := by
  cases i <;> simp [effect, payload, append_received]

/-- A byte does the same to both states and emits packets of the same length, if any. -/
theorem differInCellsOnly_effect {s s' : State} (h : DifferInCellsOnly s s') (b : Byte) :
    DifferInCellsOnly (effect (classify s.mode b) s) (effect (classify s'.mode b) s') ∧
    (effect (classify s.mode b) s).out.toList.map List.length =
      (effect (classify s'.mode b) s').out.toList.map List.length := by
  obtain ⟨hok, hok', hconfig, hmode, hrec⟩ := h
  have hlen : (packet s).length = (packet s').length := by rw [packet_length hok, packet_length hok', hrec]
  refine ⟨⟨effect_blockOk _ hok, effect_blockOk _ hok', ?_, ?_, ?_⟩, ?_⟩
  · rw [effect_config, effect_config, hconfig]
  · rw [effect_classify_mode, effect_classify_mode, hmode]
  · rw [effect_received, effect_received, hconfig, hmode, hrec]
  · rw [effect_out, effect_out, hmode, hrec]
    split
    · exact congrArg (fun n => [n]) hlen
    · rfl

/-- A run of bytes does the same to both states and emits packets of the same lengths. -/
theorem differInCellsOnly_run {s s' : State} (h : DifferInCellsOnly s s') (bs : List Byte) :
    DifferInCellsOnly (runState s (bs.map .byte)) (runState s' (bs.map .byte)) ∧
    (runPackets s (bs.map .byte)).map List.length = (runPackets s' (bs.map .byte)).map List.length := by
  induction bs generalizing s s' with
  | nil => exact ⟨h, rfl⟩
  | cons b bs ih =>
    obtain ⟨hbyte, hout⟩ := differInCellsOnly_effect h b
    obtain ⟨hrest, hpackets⟩ := ih hbyte
    rw [List.map_cons, runPackets_cons, runPackets_cons, List.map_append, List.map_append]
    exact ⟨hrest, congrArg₂ _ hout hpackets⟩

/-- Settles O21: what two states differ in stays the values of cells along every run. -/
theorem cellValuesNeverSteerTheBlock : Obligations.CellValuesNeverSteerTheBlock := by
  intro s s' bs hok hok' hconfig hmode hrec
  have hdiffer : DifferInCellsOnly s s' := ⟨hok, hok', hconfig, hmode, hrec⟩
  obtain ⟨hend, hpackets⟩ := differInCellsOnly_run hdiffer bs
  exact ⟨_, _, _, _, run_eq s bs, run_eq s' bs, hend.mode, hend.received, hpackets⟩

end Sys2Proof.Machine
end

section
/-! Proofs of the statements about the ports (spec/50_interfaces.md R85, R90, R91): what they show of a step, and that their
widths hold every packet. -/

namespace Sys2Proof.Machine

/-! ## What the ports show (R90, R91) -/

/-- An event has a packet as its result exactly when it is END with something accumulated. -/
theorem eventEffect_emits_iff (e : Event) (s : State) :
    (eventEffect e s).out.isSome = true ↔ e = .byte Marker.END ∧ s.mode = .normal ∧ 0 < s.received := by
  cases e with
  | byte b => rw [eventEffect, feed_emits_iff, Event.byte.injEq]
  | reset => simp [eventEffect]
  | nothing => simp [eventEffect]

/-- Settles O47: `pkt_valid` is whether the event has a result, and END's result is the accumulator as it was. -/
theorem portsShowThePacketInItsStepOnly : Obligations.PortsShowThePacketInItsStepOnly := by
  intro s hok
  refine ⟨fun e => ⟨_, onEvent_eq e s, fun o ⟨hready, hvalid, _⟩ => ⟨hready, ?_⟩⟩, fun hm hpos => ?_⟩
  · rw [hvalid, eventEffect_emits_iff]; rfl
  · obtain ⟨t, hfeed, -, hout⟩ := feed_end_of_normal hok hm
    rw [if_pos hpos] at hout
    refine ⟨t, hfeed, fun o ⟨_, _, hshown⟩ => ?_⟩
    obtain ⟨hlen, hbytes⟩ := hshown s.acc hout
    exact ⟨hlen.trans hok.2, hbytes⟩

/-! ## The widths (R85) -/

/-- The bits of a packet laid out on `n` wires: bit `k` is bit `k mod 8` of byte `k / 8` (R85). -/
def packetBits (n : Nat) (p : Packet) : BitVec n := BitVec.ofFnLE fun k => (p.getD (k / 8) 0).getLsbD (k % 8)

/-- Byte `i` of the packet stands on bits `8*i+7 : 8*i`, if the wires reach that far. -/
theorem extractLsb'_packetBits {n i : Nat} {p : Packet} (hi : i < p.length) (hn : 8 * p.length ≤ n) :
    (packetBits n p).extractLsb' (8 * i) 8 = p[i] := by
  refine BitVec.eq_of_getElem_eq fun k hk => ?_
  have hlt : 8 * i + k < n := by omega
  have hdiv : (8 * i + k) / 8 = i := by omega
  have hmod : (8 * i + k) % 8 = k := by omega
  rw [BitVec.getElem_extractLsb', BitVec.getLsbD_eq_getElem hlt, packetBits, BitVec.getElem_ofFnLE, hdiv, hmod,
    List.getD_eq_getElem _ _ hi, BitVec.getLsbD_eq_getElem hk]

/-- The port values that show the result of a step: the packet's length and bits, and zeros when there is none. -/
def State.shownPorts (s : State) : OutPorts s.config where
  inReady := true
  pktValid := s.out.isSome
  pktLen := BitVec.ofNat _ (s.out.getD []).length
  pktData := packetBits _ (s.out.getD [])

/-- Settles O48: the packet on the ports has at most `MAXLEN` bytes, so `CW` bits hold its length and `8 * MAXLEN` bits its
bytes. -/
theorem portWidthsHoldEveryPacket : Obligations.PortWidthsHoldEveryPacket := by
  intro s hinv
  refine ⟨s.shownPorts, rfl, rfl, fun p hout => ?_⟩
  obtain ⟨-, hbound⟩ := State.Inv.bounds hinv
  have hlen : p.length ≤ s.config.maxLen := hbound p hout
  have hwidth : p.length < 2 ^ s.config.countWidth := hlen.trans_lt (countWidth_bounds s.config).2
  simp only [State.shownPorts, OutPorts.byte, hout, Option.getD_some]
  exact ⟨Nat.mod_eq_of_lt hwidth, fun i hi => extractLsb'_packetBits hi (Nat.mul_le_mul_left 8 hlen)⟩

end Sys2Proof.Machine
end
